-- ==== Sys2Proof/Word.lean ====
section
/-! DEFINITION. The word type of the core: the unsigned byte (00_scope.md R7, R9; 10_state.md R18). -/

namespace Sys2Proof

/-- A byte, an integer in 0..255 (R9). Data, register contents, addresses, opcodes and operand bytes are all
bytes; `+` and `-` on bytes are the `mod 256` sums and differences of the rules. -/
abbrev Byte := BitVec 8

/-- A register index 0..7 that has been checked (30_encoding.md R51). -/
abbrev Reg := Fin 8

end Sys2Proof
end

