-- ==== Sys2Proof/Syntax.lean ====
section
/-! DEFINITION. The 28 instructions of 30_encoding.md R55, one constructor per row of spec/opcode_table.json, in the
table's order. An operand is the whole operand byte as fetched: a register operand is checked when the
instruction executes, not when it is decoded (R51, R66), so an out-of-range index is a term of this type. -/

namespace Sys2Proof

inductive Instr where
  /-- HLT, 40_execution_cycle.md R69 -/
  | hlt
  /-- RET, 41_stack_call.md R76 -/
  | ret
  /-- PUSH Ra, 41_stack_call.md R73 -/
  | push (a : Byte)
  /-- POP Ra, 41_stack_call.md R74 -/
  | pop (a : Byte)
  /-- PRN Ra, 40_execution_cycle.md R70 -/
  | prn (a : Byte)
  /-- CALL Ra, 41_stack_call.md R75 -/
  | call (a : Byte)
  /-- JMP Ra, 42_jumps.md R79 -/
  | jmp (a : Byte)
  /-- JEQ Ra, 42_jumps.md R80 -/
  | jeq (a : Byte)
  /-- JNE Ra, 42_jumps.md R81 -/
  | jne (a : Byte)
  /-- JGT Ra, 42_jumps.md R82 -/
  | jgt (a : Byte)
  /-- JLT Ra, 42_jumps.md R83 -/
  | jlt (a : Byte)
  /-- JLE Ra, 42_jumps.md R84 -/
  | jle (a : Byte)
  /-- INC Ra, 44_alu.md R101 -/
  | inc (a : Byte)
  /-- DEC Ra, 44_alu.md R102 -/
  | dec (a : Byte)
  /-- NOT Ra, 44_alu.md R103 -/
  | not (a : Byte)
  /-- LDI Ra,imm, 43_register_transfer.md R86 -/
  | ldi (a imm : Byte)
  /-- ST Ra,Rb, 43_register_transfer.md R87 -/
  | st (a b : Byte)
  /-- ADD Ra,Rb, 44_alu.md R90 -/
  | add (a b : Byte)
  /-- SUB Ra,Rb, 44_alu.md R91 -/
  | sub (a b : Byte)
  /-- MUL Ra,Rb, 44_alu.md R92 -/
  | mul (a b : Byte)
  /-- DIV Ra,Rb, 44_alu.md R93 -/
  | div (a b : Byte)
  /-- MOD Ra,Rb, 44_alu.md R94 -/
  | mod (a b : Byte)
  /-- CMP Ra,Rb, 44_alu.md R95 -/
  | cmp (a b : Byte)
  /-- AND Ra,Rb, 44_alu.md R96 -/
  | and (a b : Byte)
  /-- OR Ra,Rb, 44_alu.md R97 -/
  | or (a b : Byte)
  /-- XOR Ra,Rb, 44_alu.md R98 -/
  | xor (a b : Byte)
  /-- SHL Ra,Rb, 44_alu.md R99 -/
  | shl (a b : Byte)
  /-- SHR Ra,Rb, 44_alu.md R100 -/
  | shr (a b : Byte)
deriving DecidableEq, Repr

end Sys2Proof
end

