-- ==== Sys2Proof/Decode.lean ====
section
/-! DEFINITION. The decoder of 30_encoding.md R54 over the opcode map of R55, total on any bytes; after it the
encoder, written from the same map. -/

namespace Sys2Proof

/-- The three formats of R48, each with what its operand bytes build. -/
inductive Format where
  | F0 (i : Instr)
  | F1 (mk : Byte → Instr)
  | F2 (mk : Byte → Byte → Instr)

/-- Operand bytes of a format (R48). -/
def Format.operands : Format → Nat
  | .F0 _ => 0
  | .F1 _ => 1
  | .F2 _ => 2

/-- A row of the opcode map: the opcode byte, its format with the operation, and the control-transfer signal `ct`
(R54). -/
structure Entry where
  opcode : Byte
  format : Format
  ct : Bool

/-- The rows of R55 with no operand byte or one. -/
def opcodeRowsShort : List Entry := [
  ⟨0x01#8, .F0 .hlt, false⟩,
  ⟨0x11#8, .F0 .ret, true⟩,
  ⟨0x45#8, .F1 .push, false⟩,
  ⟨0x46#8, .F1 .pop, false⟩,
  ⟨0x47#8, .F1 .prn, false⟩,
  ⟨0x50#8, .F1 .call, true⟩,
  ⟨0x54#8, .F1 .jmp, true⟩,
  ⟨0x55#8, .F1 .jeq, true⟩,
  ⟨0x56#8, .F1 .jne, true⟩,
  ⟨0x57#8, .F1 .jgt, true⟩,
  ⟨0x58#8, .F1 .jlt, true⟩,
  ⟨0x59#8, .F1 .jle, true⟩,
  ⟨0x65#8, .F1 .inc, false⟩,
  ⟨0x66#8, .F1 .dec, false⟩,
  ⟨0x69#8, .F1 .not, false⟩]

/-- The rows of R55 with two operand bytes. -/
def opcodeRowsLong : List Entry := [
  ⟨0x82#8, .F2 .ldi, false⟩,
  ⟨0x84#8, .F2 .st, false⟩,
  ⟨0xA0#8, .F2 .add, false⟩,
  ⟨0xA1#8, .F2 .sub, false⟩,
  ⟨0xA2#8, .F2 .mul, false⟩,
  ⟨0xA3#8, .F2 .div, false⟩,
  ⟨0xA4#8, .F2 .mod, false⟩,
  ⟨0xA7#8, .F2 .cmp, false⟩,
  ⟨0xA8#8, .F2 .and, false⟩,
  ⟨0xAA#8, .F2 .or, false⟩,
  ⟨0xAB#8, .F2 .xor, false⟩,
  ⟨0xAC#8, .F2 .shl, false⟩,
  ⟨0xAD#8, .F2 .shr, false⟩]

/-- The opcode map of R55, sorted by opcode as there. -/
def opcodeMap : List Entry := opcodeRowsShort ++ opcodeRowsLong

/-- The decoder of R54: the whole opcode byte is looked up (mask 0xFF, R55); `none` is "unknown" (R56, R57). -/
def decodeOpcode (op : Byte) : Option Entry :=
  opcodeMap.find? fun e => e.opcode == op

/-- The operand count `opcode[7:6]` (R49). -/
def operandCount (op : Byte) : Nat := op.toNat / 64

/-- How many bytes an instruction with this opcode has: `1 + opcode[7:6]` for a legal opcode (R59). Of an illegal
one only the opcode byte is read (60_exceptions.md R107). -/
def instrLength (op : Byte) : Nat :=
  match decodeOpcode op with
  | some _ => 1 + operandCount op
  | none => 1

/-- Why a list of bytes is no instruction. -/
inductive DecodeError where
  /-- the opcode byte is not in the map of R55 (R56) -/
  | unknownOpcode (op : Byte)
  /-- the list ends before the opcode, or before an operand byte its format needs; never met by the core's own
  fetch, which always reads the whole instruction (R66) -/
  | truncated
deriving DecidableEq, Repr

/-- Decode one instruction at the head of a list of bytes, opcode first, then operand A, then operand B (R48);
answer it with the bytes after it. Decoding depends on nothing else (40_execution_cycle.md R65). -/
def decode : List Byte → Except DecodeError (Instr × List Byte)
  | [] => .error .truncated
  | op :: rest =>
    match decodeOpcode op with
    | none => .error (.unknownOpcode op)
    | some e =>
      match e.format, rest with
      | .F0 i, rest => .ok (i, rest)
      | .F1 mk, a :: rest => .ok (mk a, rest)
      | .F2 mk, a :: b :: rest => .ok (mk a b, rest)
      | .F1 _, [] => .error .truncated
      | .F2 _, [] => .error .truncated
      | .F2 _, [_] => .error .truncated

/-! ### The encoder -/

/-- The opcode byte of an instruction: the "match" value of its row in spec/opcode_table.json. -/
def Instr.opcode : Instr → Byte
  | .hlt => 0x01#8
  | .ret => 0x11#8
  | .push _ => 0x45#8
  | .pop _ => 0x46#8
  | .prn _ => 0x47#8
  | .call _ => 0x50#8
  | .jmp _ => 0x54#8
  | .jeq _ => 0x55#8
  | .jne _ => 0x56#8
  | .jgt _ => 0x57#8
  | .jlt _ => 0x58#8
  | .jle _ => 0x59#8
  | .inc _ => 0x65#8
  | .dec _ => 0x66#8
  | .not _ => 0x69#8
  | .ldi _ _ => 0x82#8
  | .st _ _ => 0x84#8
  | .add _ _ => 0xA0#8
  | .sub _ _ => 0xA1#8
  | .mul _ _ => 0xA2#8
  | .div _ _ => 0xA3#8
  | .mod _ _ => 0xA4#8
  | .cmp _ _ => 0xA7#8
  | .and _ _ => 0xA8#8
  | .or _ _ => 0xAA#8
  | .xor _ _ => 0xAB#8
  | .shl _ _ => 0xAC#8
  | .shr _ _ => 0xAD#8

/-- The operand bytes of an instruction, operand A first (R48). -/
def Instr.operandBytes : Instr → List Byte
  | .hlt | .ret => []
  | .push a | .pop a | .prn a | .call a => [a]
  | .jmp a | .jeq a | .jne a | .jgt a | .jlt a | .jle a => [a]
  | .inc a | .dec a | .not a => [a]
  | .ldi a imm => [a, imm]
  | .st a b => [a, b]
  | .add a b | .sub a b | .mul a b | .div a b | .mod a b | .cmp a b => [a, b]
  | .and a b | .or a b | .xor a b | .shl a b | .shr a b => [a, b]

/-- The bytes of an instruction at ascending addresses (R48; 20_memory.md R39). -/
def encode (i : Instr) : List Byte := i.opcode :: i.operandBytes

/-! ### The table's numbering of an instruction's bits -/

/-- The three bytes that `nbits` bits `w` of the opcode table stand for: byte `k` is bits `8k+7..8k`; every bit from
`nbits` up is 0. -/
def tableBytes (nbits w : Nat) : List Byte :=
  let v := w % 2 ^ nbits
  [BitVec.ofNat 8 v, BitVec.ofNat 8 (v / 256), BitVec.ofNat 8 (v / 65536)]

/-- The instruction the decoder reads from an instruction whose bits the opcode table numbers `w`. -/
def decodeTableWord (nbits w : Nat) : Option Instr :=
  match decode (tableBytes nbits w) with
  | .ok (i, _) => some i
  | .error _ => none

end Sys2Proof
end

