-- ==== Sys2Proof/Config.lean ====
section
/-! DEFINITION. What is fixed for the machine: the parameters of 00_scope.md R7, the values this model names for the
launch parameters the spec leaves open (R8), and the one free value, which belongs to the host. -/

namespace Sys2Proof

/-- Number of memory bytes (R7, 20_memory.md R34). -/
def Config.memSize : Nat := 256

/-- The stack pointer register is register 7 (R7, 10_state.md R20). -/
def Config.spReg : Reg := 7

/-- Reset value of the stack pointer, 0xF3 (R7; 70_reset_and_hazards.md R122). Literal unaudited, UNVERIFIED: log 25. -/
def Config.spReset : Byte := 0xF3#8

/-- Reset value of the program counter (R7, R122, R123). -/
def Config.pcReset : Byte := 0x00#8

/-- What an unlisted memory address reads as, and so the byte of `INIT_MEM` that `State.reset` has everywhere.
DESIGN CHOICE (D7 leaves it open), unsafe: log 3. -/
def Config.unlistedByte : Byte := 0x00#8

/-- The value of `INIT_GPR` that `State.reset` has for each of R0 to R6.
DESIGN CHOICE (D5 leaves it open), unsafe: log 1. -/
def Config.initGpr (_ : Fin 7) : Byte := 0x00#8

/-- The value of each of `INIT_FLAGS`' three Booleans that `State.reset` has.
DESIGN CHOICE (D6 leaves it open), unsafe: log 2. -/
def Config.initFlag : Bool := false

/-- `FAULT_EXIT_STATUS`, the host's exit status after a faulted run (R8, 92_eei_decisions.md D16). A free value:
nothing constrains it. It is outside the core and no instruction reads it: log 22. -/
opaque Config.faultExitStatus : Nat

end Sys2Proof
end

