-- ==== Sys2Proof/Machine/Memory.lean ====
section
/-! DEFINITION. The memory `M` of 20_memory.md R34: 256 bytes, held as a list of (address, byte) pairs in one canonical
form: addresses strictly rising and below 256, and no entry equal to what an unlisted address reads as. -/

namespace Sys2Proof.Machine

/-- The listed bytes of memory. -/
abbrev Memory := List Host.Cell

/-- The canonical form, of the cells at addresses `lo` and up. -/
def Memory.wfFrom (lo : Nat) : Memory → Bool
  | [] => true
  | c :: m =>
    decide (lo ≤ c.1) && decide (c.1 < Config.memSize) && (c.2 != Config.unlistedByte)
      && Memory.wfFrom (c.1 + 1) m

/-- The canonical form. -/
def Memory.wf (m : Memory) : Bool := Memory.wfFrom 0 m

/-- The byte at address `n`: the listed one, else `Config.unlistedByte` (DESIGN CHOICE, log 3). -/
def Memory.lookup (n : Nat) : Memory → Byte
  | [] => Config.unlistedByte
  | c :: m => if c.1 = n then c.2 else Memory.lookup n m

/-- The cells without those at address `n`. -/
def Memory.erase (n : Nat) : Memory → Memory
  | [] => []
  | c :: m => if c.1 = n then Memory.erase n m else c :: Memory.erase n m

/-- The cells with one more, at its place in the order. -/
def Memory.insert (n : Nat) (v : Byte) : Memory → Memory
  | [] => [(n, v)]
  | c :: m => if n < c.1 then (n, v) :: c :: m else c :: Memory.insert n v m

/-- `MemRead(a, 1)` (00_scope.md R12; 20_memory.md R38). An address is a byte, so it is already reduced mod 256
(R35), and no read faults or has an effect (R37). -/
def Memory.read (m : Memory) (a : Byte) : Byte := Memory.lookup a.toNat m

/-- `MemWrite(a, 1, v)` (R12, R38). Writing what an unlisted address reads as removes the entry. -/
def Memory.write (m : Memory) (a v : Byte) : Memory :=
  if v = Config.unlistedByte then Memory.erase a.toNat m
  else Memory.insert a.toNat v (Memory.erase a.toNat m)

/-- The cells of an image at the given addresses. -/
def Memory.cellsOf (image : Byte → Byte) : List Nat → Memory
  | [] => []
  | n :: ns =>
    if image (BitVec.ofNat 8 n) = Config.unlistedByte then Memory.cellsOf image ns
    else (n, image (BitVec.ofNat 8 n)) :: Memory.cellsOf image ns

/-- The memory that holds a whole launch image (10_state.md R31; 70_reset_and_hazards.md R124). -/
def Memory.ofImage (image : Byte → Byte) : Memory :=
  Memory.cellsOf image (List.range' 0 Config.memSize)

end Sys2Proof.Machine
end

