-- ==== Sys2Proof/Machine/State.lean ====
section
/-! DEFINITION. The architectural state of 10_state.md R17, whole, as plain data; the state after reset; and the reasons
a step of the model can stop. -/

namespace Sys2Proof.Machine

/-- The register file: eight bytes `R0` to `R7` (R18). `R7` is the stack pointer (R20). -/
structure Regs where
  r0 : Byte
  r1 : Byte
  r2 : Byte
  r3 : Byte
  r4 : Byte
  r5 : Byte
  r6 : Byte
  r7 : Byte
deriving DecidableEq, Repr

/-- The flag register: "three independent booleans" with no byte layout (R24, R25; D21, log 20). -/
structure Flags where
  /-- Equal -/
  E : Bool
  /-- Greater -/
  G : Bool
  /-- Less -/
  L : Bool
deriving DecidableEq, Repr

/-- The three fault causes of 60_exceptions.md R106. Their numbers are in Machine/Observe.lean. -/
inductive FaultCode where
  /-- an opcode byte that is not in the opcode map (R107) -/
  | decodeFault
  /-- DIV or MOD with a zero divisor (R109) -/
  | arithmeticFault
  /-- a register operand byte of 8 or more (R108) -/
  | registerIndexFault
deriving DecidableEq, Repr

/-- Which operand a register index fault is about (R108). -/
inductive OperandPos where
  | A
  | B
deriving DecidableEq, Repr

/-- The fault record `(code, opcode, addr, detail)` of R106; `addr` is the address of the faulting instruction's
opcode, and `detail` is none except for `RegisterIndexFault`, where it is the operand and its byte. -/
structure FaultRecord where
  code : FaultCode
  opcode : Byte
  addr : Byte
  detail : Option (OperandPos × Byte)
deriving DecidableEq, Repr

/-- The state of R17: "Nothing else is state". -/
structure State where
  /-- `M` (20_memory.md R34) -/
  mem : Memory
  /-- `x[0..7]` (R18) -/
  regs : Regs
  /-- `pc` (R22): during a step, the address of the instruction's opcode byte -/
  pc : Byte
  /-- `E`, `G`, `L` (R24) -/
  flags : Flags
  /-- Running is false, Halted is true (R28) -/
  halted : Bool
  /-- none, or the record of the fault that halted the core (R28) -/
  fault : Option FaultRecord
  /-- the output channel, oldest byte first (R27) -/
  out : List Byte
deriving DecidableEq, Repr

/-- Launch (10_state.md R31) with its three parameters (00_scope.md R8): every component as 70_reset_and_hazards.md
R122 gives it. -/
def State.launch (initGpr : Fin 7 → Byte) (initFlags : Flags) (initMem : Byte → Byte) : State where
  mem := Memory.ofImage initMem
  regs :=
    { r0 := initGpr 0, r1 := initGpr 1, r2 := initGpr 2, r3 := initGpr 3, r4 := initGpr 4, r5 := initGpr 5,
      r6 := initGpr 6, r7 := Config.spReset }
  pc := Config.pcReset
  flags := initFlags
  halted := false
  fault := none
  out := []

/-- The machine right after reset (R122), with the launch parameters this model names: `INIT_GPR` all zero (DESIGN
CHOICE, log 1), `INIT_FLAGS` all false (DESIGN CHOICE, log 2), and no byte listed in memory (DESIGN CHOICE, log 3). -/
def State.reset : State where
  mem := []
  regs :=
    { r0 := Config.initGpr 0, r1 := Config.initGpr 1, r2 := Config.initGpr 2, r3 := Config.initGpr 3,
      r4 := Config.initGpr 4, r5 := Config.initGpr 5, r6 := Config.initGpr 6, r7 := Config.spReset }
  pc := Config.pcReset
  flags := { E := Config.initFlag, G := Config.initFlag, L := Config.initFlag }
  halted := false
  fault := none
  out := []

/-- Why a step of the MODEL stops. The faults the core itself detects are not here: taking one is a next state (log 5). -/
inductive Fault where
  /-- Raised by `step` alone, on a state whose `halted` is true: "While `halted = true` the core takes no step" (40_execution_cycle.md
  R68). Safe: the hardware does not go on either (log 6). -/
  | halted
deriving DecidableEq, Repr

/-- Why the model gives no meaning. -/
inductive Refusal where
  /-- Answered by an arm of `exec` whose instruction has no meaning yet; no arm answers it now. Safe. -/
  | notModelled (mnemonic : String)
deriving DecidableEq, Repr

/-- What executing an instruction, or a step, answers. -/
abbrev Result := Host.Outcome State Fault Refusal

end Sys2Proof.Machine
end

