-- ==== Sys2Proof/Machine/Ops.lean ====
section
/-! DEFINITION. The state primitives of 00_scope.md R12, the advance of pc, the taking of a fault, and the fetch. -/

namespace Sys2Proof.Machine

/-- The register with index `i` (10_state.md R18). -/
def Regs.get (f : Regs) : Reg → Byte
  | 0 => f.r0
  | 1 => f.r1
  | 2 => f.r2
  | 3 => f.r3
  | 4 => f.r4
  | 5 => f.r5
  | 6 => f.r6
  | 7 => f.r7

/-- The register file with register `i` written; no register is hard-wired (R18). -/
def Regs.set (f : Regs) (i : Reg) (v : Byte) : Regs :=
  match i with
  | 0 => { f with r0 := v }
  | 1 => { f with r1 := v }
  | 2 => { f with r2 := v }
  | 3 => { f with r3 := v }
  | 4 => { f with r4 := v }
  | 5 => { f with r5 := v }
  | 6 => { f with r6 := v }
  | 7 => { f with r7 := v }

/-- `x[i]` (R12). -/
def State.reg (s : State) (i : Reg) : Byte := s.regs.get i

/-- `x[i] <- v` (R12). -/
def State.setReg (s : State) (i : Reg) (v : Byte) : State := { s with regs := s.regs.set i v }

/-- `SP`, another name for `x[7]` (R12, 10_state.md R20). -/
def State.sp (s : State) : Byte := s.reg Config.spReg

/-- `SP <- v`. -/
def State.setSp (s : State) (v : Byte) : State := s.setReg Config.spReg v

/-- `MemRead(a, 1)` (R12). -/
def State.read (s : State) (a : Byte) : Byte := Memory.read s.mem a

/-- `MemWrite(a, 1, v)` (R12). -/
def State.write (s : State) (a v : Byte) : State := { s with mem := Memory.write s.mem a v }

/-- `Emit(v)`: append to the output channel (R12, 10_state.md R27). -/
def State.emit (s : State) (v : Byte) : State := { s with out := s.out ++ [v] }

/-- `pc <- target` (R12): a control transfer that redirects. -/
def State.setPc (s : State) (target : Byte) : State := { s with pc := target }

/-- `pc <- (pc + 1 + n) mod 256`, for an operation with `n` operand bytes that did not redirect (40_execution_cycle.md R67). -/
def State.advance (s : State) (n : Nat) : State := { s with pc := s.pc + BitVec.ofNat 8 (1 + n) }

/-- All three flags written, as CMP does (44_alu.md R95). -/
def State.setFlags (s : State) (f : Flags) : State := { s with flags := f }

/-- `halted <- true` (R69). -/
def State.halt (s : State) : State := { s with halted := true }

/-- TAKING A FAULT (60_exceptions.md R111): `halted <- true`, `fault <- (code, opcode, addr = pc, detail)`, and nothing
else; pc stays. Precise by the spec's decision D9 (log 13). There is no return from a fault (R112). -/
def State.takeFault (s : State) (code : FaultCode) (opcode : Byte) (detail : Option (OperandPos × Byte)) : State :=
  { s with halted := true, fault := some { code := code, opcode := opcode, addr := s.pc, detail := detail } }

/-- The `n` bytes of memory from `a` upward, wrapping (20_memory.md R35). -/
def State.bytesFrom (s : State) (a : Byte) : Nat → List Byte
  | 0 => []
  | n + 1 => s.read a :: s.bytesFrom (a + 1#8) n

/-- The bytes the cycle fetches (40_execution_cycle.md R63, R64, R66): the opcode at pc and, where it is legal, as many
operand bytes after it as `opcode[7:6]` says; each as memory holds it now (20_memory.md R46, D13, log 16). -/
def State.fetchBytes (s : State) : List Byte :=
  s.bytesFrom s.pc (instrLength (s.read s.pc))

/-- The instruction at pc (R63 to R66), or why there is none. -/
def State.fetchInstr (s : State) : Except DecodeError Instr :=
  match decode s.fetchBytes with
  | .ok (i, _) => .ok i
  | .error e => .error e

/-- What a step does where the fetch finds no instruction: take `DecodeFault` with the fetched opcode byte, before any
operand byte is read (R107). -/
def State.takeDecodeFault (s : State) : State :=
  s.takeFault .decodeFault (s.read s.pc) none

/-- Why no step exists in this state, if none does (40_execution_cycle.md R68; log 6). -/
def State.stopReason (s : State) : Option Fault :=
  if s.halted then some .halted else none

/-- Bytes stored at ascending addresses from `a`, wrapping: what the host's loader does before a launch (R124). -/
def State.writeBytes (s : State) (a : Byte) : List Byte → State
  | [] => s
  | v :: vs => (s.write a v).writeBytes (a + 1#8) vs

/-- The launch image that holds a program's bytes at address 0 upward, in file order, and `rest` above them (20_memory.md
R41; 70_reset_and_hazards.md R122, R124). A program of more than 256 bytes is cut off after address 255: DESIGN CHOICE, unsafe,
log 27; the spec leaves over-long programs unspecified (30_encoding.md R62) and only recommends that a loader refuse them
(D17). -/
def programImage (program : List Byte) (rest : Byte → Byte) (a : Byte) : Byte :=
  program.getD a.toNat (rest a)

end Sys2Proof.Machine
end

