-- ==== Sys2Proof/Machine/Operands.lean ====
section
/-! DEFINITION. The operand forms: the register operand and its check (30_encoding.md R51), and the two stack forms, register
indirect through SP (41_stack_call.md R72; 43_register_transfer.md R88). The immediate (R52) is the operand byte itself. -/

namespace Sys2Proof.Machine

/-- The register an operand byte selects: the whole byte is the index, not masked, so a byte of 8 or more selects none
(R51). -/
def selectReg (v : Byte) : Option Reg :=
  if h : v.toNat < 8 then some ⟨v.toNat, h⟩ else none

/-- `CheckReg(v)`, then go on with the register (R51). A byte of 8 or more takes `RegisterIndexFault(opcode, addr = pc,
detail = (which, v))` (60_exceptions.md R108; the spec's decision D1, log 8). -/
def withReg (opcode : Byte) (which : OperandPos) (v : Byte) (s : State) (k : Reg → Result) : Result :=
  match selectReg v with
  | some r => k r
  | none => .next (s.takeFault .registerIndexFault opcode (some (which, v)))

/-- `CheckReg` of operand A and then of operand B: the first that fails is the one reported (R110; D11, log 14). -/
def withRegs (opcode a b : Byte) (s : State) (k : Reg → Reg → Result) : Result :=
  withReg opcode .A a s fun ra => withReg opcode .B b s fun rb => k ra rb

/-- The address a push or a call stores to: `SP` after the decrement (R72, R73, R75). -/
def State.pushAddr (s : State) : Byte := s.sp - 1#8

/-- `SP <- (SP - 1) mod 256`, the pre-decrement of `Push` (R72). -/
def State.preDecSp (s : State) : State := s.setSp s.pushAddr

/-- `SP <- (SP + 1) mod 256`, the post-increment of `Pop` (R72). -/
def State.postIncSp (s : State) : State := s.setSp (s.sp + 1#8)

end Sys2Proof.Machine
end

