-- ==== Sys2Proof/Machine/AluOps.lean ====
section
/-! DEFINITION. The ALU: its pure functions on bytes (44_alu.md R89), each computed exactly on integers and then reduced mod
256 (00_scope.md R9, R11), and the shared forms of the ALU instructions. -/

namespace Sys2Proof.Machine

/-- `s + t` (R90). -/
def aluAdd (s t : Byte) : Byte := BitVec.ofNat 8 (s.toNat + t.toNat)

/-- `s - t` (R91). -/
def aluSub (s t : Byte) : Byte := BitVec.ofInt 8 ((s.toNat : Int) - (t.toNat : Int))

/-- `s * t`: the low byte of the product (R92). -/
def aluMul (s t : Byte) : Byte := BitVec.ofNat 8 (s.toNat * t.toNat)

/-- `s div t`, used only with `t > 0` (R93). -/
def aluDiv (s t : Byte) : Byte := BitVec.ofNat 8 (s.toNat / t.toNat)

/-- `s mod t`, used only with `t > 0` (R94). -/
def aluMod (s t : Byte) : Byte := BitVec.ofNat 8 (s.toNat % t.toNat)

/-- `s & t` (R96). -/
def aluAnd (s t : Byte) : Byte := s &&& t

/-- `s | t` (R97). -/
def aluOr (s t : Byte) : Byte := s ||| t

/-- `s ^ t` (R98). -/
def aluXor (s t : Byte) : Byte := s ^^^ t

/-- `s << t` = `s * 2^t`; the count is the whole byte, so 8 or more gives 0 (R99; D4, log 11). -/
def aluShl (s t : Byte) : Byte := BitVec.ofNat 8 (s.toNat * 2 ^ t.toNat)

/-- `s >> t` = `s div 2^t`, logical; the count is the whole byte (R100; D4, log 11). -/
def aluShr (s t : Byte) : Byte := BitVec.ofNat 8 (s.toNat / 2 ^ t.toNat)

/-- `s + 1` (R101). -/
def aluInc (s : Byte) : Byte := BitVec.ofNat 8 (s.toNat + 1)

/-- `s - 1` (R102). -/
def aluDec (s : Byte) : Byte := BitVec.ofInt 8 ((s.toNat : Int) - 1)

/-- `~s` = `255 - s` (R103). -/
def aluNot (s : Byte) : Byte := BitVec.ofNat 8 (255 - s.toNat)

/-- The two-register form of R89: `x[ra] <- f(x[ra], x[rb])`, operand A being the destination and the left operand (D3, log
10); both registers are read before the result is written; no flag is written; pc advances by 3. -/
def aluBinary (opcode : Byte) (f : Byte → Byte → Byte) (a b : Byte) (s : State) : Result :=
  withRegs opcode a b s fun ra rb => .next ((s.setReg ra (f (s.reg ra) (s.reg rb))).advance 2)

/-- The two-register form with the zero guard of DIV and MOD (R93, R94): a divisor of 0 takes
`ArithmeticFault(opcode, addr = pc)` (60_exceptions.md R109). -/
def aluDivide (opcode : Byte) (f : Byte → Byte → Byte) (a b : Byte) (s : State) : Result :=
  withRegs opcode a b s fun ra rb =>
    if s.reg rb = 0#8 then .next (s.takeFault .arithmeticFault opcode none)
    else .next ((s.setReg ra (f (s.reg ra) (s.reg rb))).advance 2)

/-- The one-register form of R89: `x[ra] <- g(x[ra])`; pc advances by 2. -/
def aluUnary (opcode : Byte) (g : Byte → Byte) (a : Byte) (s : State) : Result :=
  withReg opcode .A a s fun ra => .next ((s.setReg ra (g (s.reg ra))).advance 1)

end Sys2Proof.Machine
end

