-- ==== Sys2Proof/Machine/Flags.lean ====
section
/-! DEFINITION. The flag computation of CMP and the conditions of the jumps (10_state.md R24; 44_alu.md R95; 42_jumps.md R78). -/

namespace Sys2Proof.Machine

/-- The flags CMP computes from scratch, comparing unsigned bytes (R95). -/
def compareFlags (s t : Byte) : Flags where
  E := decide (s.toNat = t.toNat)
  G := decide (s.toNat > t.toNat)
  L := decide (s.toNat < t.toNat)

/-- `cond` of JMP (R78's table). -/
def condJmp (_ : Flags) : Bool := true

/-- `cond` of JEQ. -/
def condJeq (f : Flags) : Bool := f.E

/-- `cond` of JNE. -/
def condJne (f : Flags) : Bool := !f.E

/-- `cond` of JGT. -/
def condJgt (f : Flags) : Bool := f.G

/-- `cond` of JLT. -/
def condJlt (f : Flags) : Bool := f.L

/-- `cond` of JLE. -/
def condJle (f : Flags) : Bool := f.L || f.E

end Sys2Proof.Machine
end

