-- ==== Sys2Proof/Machine/Alu.lean ====
section
/-! DEFINITION. The meanings of the 14 ALU instructions (44_alu.md R90 to R103). -/

namespace Sys2Proof.Machine

/-- ADD Ra,Rb (R90). -/
def execAdd (a b : Byte) (s : State) : Result := aluBinary (Instr.add a b).opcode aluAdd a b s

/-- SUB Ra,Rb (R91). -/
def execSub (a b : Byte) (s : State) : Result := aluBinary (Instr.sub a b).opcode aluSub a b s

/-- MUL Ra,Rb (R92). -/
def execMul (a b : Byte) (s : State) : Result := aluBinary (Instr.mul a b).opcode aluMul a b s

/-- DIV Ra,Rb (R93). -/
def execDiv (a b : Byte) (s : State) : Result := aluDivide (Instr.div a b).opcode aluDiv a b s

/-- MOD Ra,Rb (R94). -/
def execMod (a b : Byte) (s : State) : Result := aluDivide (Instr.mod a b).opcode aluMod a b s

/-- CMP Ra,Rb (R95): the three flags, and no register. -/
def execCmp (a b : Byte) (s : State) : Result :=
  withRegs (Instr.cmp a b).opcode a b s fun ra rb =>
    .next ((s.setFlags (compareFlags (s.reg ra) (s.reg rb))).advance 2)

/-- AND Ra,Rb (R96). -/
def execAnd (a b : Byte) (s : State) : Result := aluBinary (Instr.and a b).opcode aluAnd a b s

/-- OR Ra,Rb (R97). -/
def execOr (a b : Byte) (s : State) : Result := aluBinary (Instr.or a b).opcode aluOr a b s

/-- XOR Ra,Rb (R98). -/
def execXor (a b : Byte) (s : State) : Result := aluBinary (Instr.xor a b).opcode aluXor a b s

/-- SHL Ra,Rb (R99). -/
def execShl (a b : Byte) (s : State) : Result := aluBinary (Instr.shl a b).opcode aluShl a b s

/-- SHR Ra,Rb (R100). -/
def execShr (a b : Byte) (s : State) : Result := aluBinary (Instr.shr a b).opcode aluShr a b s

/-- INC Ra (R101). -/
def execInc (a : Byte) (s : State) : Result := aluUnary (Instr.inc a).opcode aluInc a s

/-- DEC Ra (R102). -/
def execDec (a : Byte) (s : State) : Result := aluUnary (Instr.dec a).opcode aluDec a s

/-- NOT Ra (R103). -/
def execNot (a : Byte) (s : State) : Result := aluUnary (Instr.not a).opcode aluNot a s

end Sys2Proof.Machine
end

