-- ==== Sys2Proof/Machine/Jump.lean ====
section
/-! DEFINITION. The meanings of the six jumps (42_jumps.md R78 to R84). -/

namespace Sys2Proof.Machine

/-- The common pseudocode of R78: the register is checked whether or not the condition holds; taken, pc becomes the
register's value; not taken, pc advances by 2. -/
def jumpIf (opcode : Byte) (cond : Flags → Bool) (a : Byte) (s : State) : Result :=
  withReg opcode .A a s fun ra =>
    if cond s.flags then .next (s.setPc (s.reg ra)) else .next (s.advance 1)

/-- JMP Ra (R79). -/
def execJmp (a : Byte) (s : State) : Result := jumpIf (Instr.jmp a).opcode condJmp a s

/-- JEQ Ra (R80). -/
def execJeq (a : Byte) (s : State) : Result := jumpIf (Instr.jeq a).opcode condJeq a s

/-- JNE Ra (R81). -/
def execJne (a : Byte) (s : State) : Result := jumpIf (Instr.jne a).opcode condJne a s

/-- JGT Ra (R82). -/
def execJgt (a : Byte) (s : State) : Result := jumpIf (Instr.jgt a).opcode condJgt a s

/-- JLT Ra (R83). -/
def execJlt (a : Byte) (s : State) : Result := jumpIf (Instr.jlt a).opcode condJlt a s

/-- JLE Ra (R84). -/
def execJle (a : Byte) (s : State) : Result := jumpIf (Instr.jle a).opcode condJle a s

end Sys2Proof.Machine
end

