-- ==== Sys2Proof/Machine/Stack.lean ====
section
/-! DEFINITION. The meanings of PUSH, POP, CALL and RET (41_stack_call.md R73 to R76). Each runs the statements of its rule in
the order written, a read seeing every earlier write (00_scope.md R13); that decides the forms that name R7 (D12, log 15). -/

namespace Sys2Proof.Machine

/-- PUSH Ra (R73): decrement SP, store the register at SP, then zero the register. -/
def execPush (a : Byte) (s : State) : Result :=
  withReg (Instr.push a).opcode .A a s fun ra =>
    let s1 := s.preDecSp
    let s2 := s1.write s1.sp (s1.reg ra)
    .next ((s2.setReg ra 0#8).advance 1)

/-- POP Ra (R74): load the register from SP, then increment SP. -/
def execPop (a : Byte) (s : State) : Result :=
  withReg (Instr.pop a).opcode .A a s fun ra =>
    .next ((s.setReg ra (s.read s.sp)).postIncSp.advance 1)

/-- CALL Ra (R75): decrement SP, store the return address `pc + 2` at SP, then set pc from the register. -/
def execCall (a : Byte) (s : State) : Result :=
  withReg (Instr.call a).opcode .A a s fun ra =>
    let s1 := s.preDecSp
    let s2 := s1.write s1.sp (s1.pc + 2#8)
    .next (s2.setPc (s2.reg ra))

/-- RET (R76): set pc from the byte at SP, then increment SP. -/
def execRet (s : State) : Result :=
  .next (s.setPc (s.read s.sp)).postIncSp

end Sys2Proof.Machine
end

