-- ==== Sys2Proof/Machine/System.lean ====
section
/-! DEFINITION. The meanings of HLT and PRN (40_execution_cycle.md R69, R70). -/

namespace Sys2Proof.Machine

/-- HLT (R69): halted, with `fault` left as it is; pc still advances by 1 (D8, log 12). -/
def execHlt (s : State) : Result := .next (s.halt.advance 0)

/-- PRN Ra (R70): the register's value is appended to the output channel. -/
def execPrn (a : Byte) (s : State) : Result :=
  withReg (Instr.prn a).opcode .A a s fun ra => .next ((s.emit (s.reg ra)).advance 1)

end Sys2Proof.Machine
end

