-- ==== Sys2Proof/Machine/Transfer.lean ====
section
/-! DEFINITION. The meanings of LDI and ST (43_register_transfer.md R86, R87). -/

namespace Sys2Proof.Machine

/-- LDI Ra,imm (R86): the immediate is the whole operand byte B. -/
def execLdi (a imm : Byte) (s : State) : Result :=
  withReg (Instr.ldi a imm).opcode .A a s fun ra => .next ((s.setReg ra imm).advance 2)

/-- ST Ra,Rb (R87): a register copy, operand A the destination (D2, log 9); memory is not written. -/
def execSt (a b : Byte) (s : State) : Result :=
  withRegs (Instr.st a b).opcode a b s fun ra rb => .next ((s.setReg ra (s.reg rb)).advance 2)

end Sys2Proof.Machine
end

