-- ==== Sys2Proof/Machine/Step.lean ====
section
/-! DEFINITION. One step of the core (40_execution_cycle.md R63), and where a step fetches its instruction. -/

namespace Sys2Proof.Machine

/-- One step (R63): none while halted (R68); else fetch, decode and execute one instruction, or take `DecodeFault`. -/
def step (s : State) : Host.Outcome State Fault Refusal :=
  match s.stopReason with
  | some f => .fault f
  | none =>
    match s.fetchInstr with
    | .ok i => exec i s
    | .error _ => .next s.takeDecodeFault

/-- The state with the three bytes of a table word stored at pc and the two addresses after it, where the next step
fetches; in a state that is not halted that step runs exactly that instruction (log 4). -/
def State.withFetchWord (s : State) (nbits w : Nat) : State :=
  s.writeBytes s.pc (tableBytes nbits w)

end Sys2Proof.Machine
end

