-- ==== Sys2Proof/Machine/Observe.lean ====
section
/-! DEFINITION. What a host makes of a state (10_state.md R33; 70_reset_and_hazards.md R133). No instruction reads any of it. -/

namespace Sys2Proof.Machine

/-- The number of a fault cause (60_exceptions.md R106; the spec's decision D10, log 17). -/
def FaultCode.number : FaultCode → Nat
  | .decodeFault => 1
  | .arithmeticFault => 2
  | .registerIndexFault => 3

/-- How a run stands (R133). -/
inductive Status where
  /-- `halted` is false -/
  | running
  /-- `halted` is true and `fault` is none: a HLT was executed -/
  | ended
  /-- `halted` is true and `fault` holds a record -/
  | faulted (r : FaultRecord)
deriving DecidableEq, Repr

/-- The status a host reads (R133). -/
def State.status (s : State) : Status :=
  match s.halted, s.fault with
  | false, _ => .running
  | true, none => .ended
  | true, some r => .faulted r

/-- The status code of a run that has ended: 0 after HLT, else the fault's number (R106). -/
def State.statusCode (s : State) : Option Nat :=
  match s.status with
  | .running => none
  | .ended => some 0
  | .faulted r => some r.code.number

/-- The ASCII digit of a number below 10. -/
def asciiDigit (n : Nat) : Byte := BitVec.ofNat 8 (0x30 + n)

/-- One element of the output channel as the host prints it: decimal, no sign, no leading zeros, then a newline
(10_state.md R27; 60_exceptions.md R118; D15, log 22). -/
def renderByte (v : Byte) : List Byte :=
  let n := v.toNat
  if n < 10 then [asciiDigit n, 0x0A#8]
  else if n < 100 then [asciiDigit (n / 10), asciiDigit (n % 10), 0x0A#8]
  else [asciiDigit (n / 100), asciiDigit (n / 10 % 10), asciiDigit (n % 10), 0x0A#8]

/-- Standard output so far. -/
def State.stdout (s : State) : List Byte := s.out.flatMap renderByte

/-- The host's process exit status once the run has ended: 0 after HLT, the host's own `FAULT_EXIT_STATUS` after a fault
(R111; D16, log 22). -/
def State.exitStatus (s : State) : Option Nat :=
  match s.status with
  | .running => none
  | .ended => some 0
  | .faulted _ => some Config.faultExitStatus

end Sys2Proof.Machine
end

