-- ==== Sys2Proof/WellFormed.lean ====
section
/-! DEFINITION. The well-formed instructions: every register operand is in 0..7 (30_encoding.md R51, R58).
An ill-formed one still decodes and still executes: it takes `RegisterIndexFault` (R51). -/

namespace Sys2Proof

/-- Operand A, where the instruction uses it as a register index (R51; the list of 60_exceptions.md R108). -/
def Instr.regA : Instr → Option Byte
  | .hlt | .ret => none
  | .push a | .pop a | .prn a | .call a => some a
  | .jmp a | .jeq a | .jne a | .jgt a | .jlt a | .jle a => some a
  | .inc a | .dec a | .not a => some a
  | .ldi a _ => some a
  | .st a _ => some a
  | .add a _ | .sub a _ | .mul a _ | .div a _ | .mod a _ | .cmp a _ => some a
  | .and a _ | .or a _ | .xor a _ | .shl a _ | .shr a _ => some a

/-- Operand B, where the instruction uses it as a register index: ST and the two-register ALU operations, never
LDI's immediate (R108). -/
def Instr.regB : Instr → Option Byte
  | .hlt | .ret => none
  | .push _ | .pop _ | .prn _ | .call _ => none
  | .jmp _ | .jeq _ | .jne _ | .jgt _ | .jlt _ | .jle _ => none
  | .inc _ | .dec _ | .not _ => none
  | .ldi _ _ => none
  | .st _ b => some b
  | .add _ b | .sub _ b | .mul _ b | .div _ b | .mod _ b | .cmp _ b => some b
  | .and _ b | .or _ b | .xor _ b | .shl _ b | .shr _ b => some b

/-- A register operand is absent, or in 0..7. -/
def regOperandOk : Option Byte → Bool
  | none => true
  | some v => decide (v.toNat < 8)

/-- Both register operands, where present, are in 0..7 (R58). -/
def Instr.wellFormed (i : Instr) : Bool :=
  regOperandOk i.regA && regOperandOk i.regB

end Sys2Proof
end

