-- ==== Sys2Proof/Safety.lean ====
section
/-! DEFINITION. The terms claims are made in: frames, the invariant of the core, and what an instruction names. -/

namespace Sys2Proof.Machine

/-- Every register but those of `rs` is as before. -/
def RegsKeptExcept (rs : List Reg) (s t : State) : Prop := ∀ r, r ∉ rs → t.reg r = s.reg r

/-- Every byte of memory is as before. -/
def MemKept (s t : State) : Prop := ∀ a, t.read a = s.read a

/-- Every byte of memory but the one at `d` is as before. -/
def MemKeptExcept (d : Byte) (s t : State) : Prop := ∀ a, a ≠ d → t.read a = s.read a

/-- The status (halted, fault record) and the output channel are as before. -/
def StatusKept (s t : State) : Prop := t.halted = s.halted ∧ t.fault = s.fault ∧ t.out = s.out

/-- The instruction completes by its own effect, which is to write the value `v` (as a number) into register `d`: every
other register, the flags, memory, the status and the output are as before, and pc is after the instruction's `len`
bytes. -/
def CompletesWriting (i : Instr) (len : Nat) (s : State) (d : Reg) (v : Nat) : Prop :=
  ∃ t, exec i s = .next t ∧ (t.reg d).toNat = v ∧ RegsKeptExcept [d] s t ∧ t.flags = s.flags ∧ MemKept s t ∧
    StatusKept s t ∧ t.pc = s.pc + BitVec.ofNat 8 len

/-- The state in which taking a fault leaves the core (60_exceptions.md R111). -/
def State.faulted (s : State) (r : FaultRecord) : State := { s with halted := true, fault := some r }

/-- The form of a fault record (60_exceptions.md R106): a detail exactly for a register index fault, and then an operand
byte of 8 or more. -/
def FaultRecord.formOk (r : FaultRecord) : Prop :=
  match r.code, r.detail with
  | .decodeFault, none => True
  | .arithmeticFault, none => r.opcode = 0xA3#8 ∨ r.opcode = 0xA4#8
  | .registerIndexFault, some (_, v) => 8 ≤ v.toNat
  | _, _ => False

/-- The invariant of the core: memory is in its canonical form; a fault record is there only in a halted state, names
the address pc stands at, and has the form of its cause (10_state.md R28; R106, R111). -/
structure State.Inv (s : State) : Prop where
  memWf : Memory.wf s.mem = true
  faultHalts : s.fault.isSome → s.halted = true
  faultAddr : ∀ r, s.fault = some r → r.addr = s.pc
  faultForm : ∀ r, s.fault = some r → r.formOk

/-- Exactly one flag is set (10_state.md R26). -/
def Flags.exactlyOne (f : Flags) : Bool :=
  match f.E, f.G, f.L with
  | true, false, false => true
  | false, true, false => true
  | false, false, true => true
  | _, _, _ => false

/-- The flags that the instruction with opcode byte `op` reads are the same in both (R24). -/
def Flags.agreeOnRead (op : Byte) (f g : Flags) : Prop :=
  (op = 0x55#8 ∨ op = 0x56#8 ∨ op = 0x59#8 → f.E = g.E) ∧ (op = 0x57#8 → f.G = g.G) ∧
    (op = 0x58#8 ∨ op = 0x59#8 → f.L = g.L)

/-- The bytes of memory that a step of `s` reads are the same in `m` (20_memory.md R36): the opcode at pc, as many operand
bytes as a legal opcode has, and the byte at SP for POP and RET. -/
def State.readsAgree (s : State) (m : Memory) : Prop :=
  let op := s.read s.pc
  Memory.read m s.pc = op ∧
    ((decodeOpcode op).isSome → 1 ≤ operandCount op → Memory.read m (s.pc + 1#8) = s.read (s.pc + 1#8)) ∧
    ((decodeOpcode op).isSome → 2 ≤ operandCount op → Memory.read m (s.pc + 2#8) = s.read (s.pc + 2#8)) ∧
    (op = 0x46#8 ∨ op = 0x11#8 → Memory.read m s.sp = s.read s.sp)

/-- The next state of an outcome, if it is one. -/
def nextState? : Result → Option State
  | .next t => some t
  | .fault _ => none
  | .refused _ => none

end Sys2Proof.Machine

namespace Sys2Proof

open Machine

/-- `redirected` (40_execution_cycle.md R67): a control transfer that is unconditional or whose condition holds. -/
def Instr.redirects (i : Instr) (f : Flags) : Bool :=
  match i with
  | .ret | .call _ | .jmp _ => true
  | .jeq _ => f.E
  | .jne _ => !f.E
  | .jgt _ => f.G
  | .jlt _ => f.L
  | .jle _ => f.L || f.E
  | .hlt | .push _ | .pop _ | .prn _ | .inc _ | .dec _ | .not _ => false
  | .ldi _ _ | .st _ _ => false
  | .add _ _ | .sub _ _ | .mul _ _ | .div _ _ | .mod _ _ | .cmp _ _ => false
  | .and _ _ | .or _ _ | .xor _ _ | .shl _ _ | .shr _ _ => false

/-- The registers an instruction may write: operand A's where 10_state.md R19 lists it as written, and R7 for the four
stack instructions (R20). -/
def Instr.writesReg (i : Instr) (r : Reg) : Bool :=
  match i with
  | .push a | .pop a => a.toNat == r.val || r == 7
  | .call _ | .ret => r == 7
  | .ldi a _ | .st a _ | .inc a | .dec a | .not a => a.toNat == r.val
  | .add a _ | .sub a _ | .mul a _ | .div a _ | .mod a _ => a.toNat == r.val
  | .and a _ | .or a _ | .xor a _ | .shl a _ | .shr a _ => a.toNat == r.val
  | .hlt | .prn _ | .cmp _ _ => false
  | .jmp _ | .jeq _ | .jne _ | .jgt _ | .jlt _ | .jle _ => false

/-- The divisor of a DIV or MOD with legal operands holds 0 (60_exceptions.md R109). -/
def Instr.dividesByZero (i : Instr) (s : State) : Prop :=
  match i with
  | .div _ b | .mod _ b => ∃ hb : b.toNat < 8, s.reg ⟨b.toNat, hb⟩ = 0#8
  | _ => False

end Sys2Proof
end

