-- ==== Sys2Proof/Certificates/Slice0/Obligations.lean ====
section
/-! DEFINITION. The statements for the provers, from the spec's numbered rules. In every one, a register operand is the whole
operand byte `a` or `b`, legal exactly when below 8 (30_encoding.md R51); the forms with a byte of 8 or more are those of
`RegisterOperandAOfEightOrMoreFaults` and `RegisterOperandBOfEightOrMoreFaults`. -/

open Sys2Proof Sys2Proof.Machine

/-! ### Encoding and decoding -/

/-- Decode and encode agree in both directions: a list of bytes decodes to `i` with `rest` left exactly when it is the
encoding of `i` followed by `rest`, for every instruction and every value of its operand bytes (30_encoding.md R48, R54,
R55). -/
def Obligations.DecodeExactlyInvertsEncode : Prop :=
  ∀ (bs : List Byte) (i : Instr) (rest : List Byte), decode bs = .ok (i, rest) ↔ bs = encode i ++ rest

/-- The operand count is `opcode[7:6]`: whatever bytes decode, the decoder takes one opcode byte and exactly that many
bytes after it, and the field's value 3 selects no instruction (R49, R57). -/
def Obligations.OperandCountIsTopTwoOpcodeBits : Prop :=
  ∀ (op : Byte) (bs : List Byte) (i : Instr) (rest : List Byte), decode (op :: bs) = .ok (i, rest) →
    bs.length = op.toNat / 64 + rest.length ∧ op.toNat / 64 ≠ 3

/-- A few words written out from the table of R55 decode to the instructions they stand for, one of each family. -/
def Obligations.SampleWordsDecode : Prop :=
  decode [0b00000001#8] = .ok (.hlt, []) ∧
  decode [0b00010001#8] = .ok (.ret, []) ∧
  decode [0b01000101#8, 0b00000111#8] = .ok (.push 7#8, []) ∧
  decode [0b01000111#8, 0b00000011#8] = .ok (.prn 3#8, []) ∧
  decode [0b01011001#8, 0b00000010#8] = .ok (.jle 2#8, []) ∧
  decode [0b01101001#8, 0b00000101#8] = .ok (.not 5#8, []) ∧
  decode [0b10000010#8, 0b00000001#8, 0b11111111#8] = .ok (.ldi 1#8 255#8, []) ∧
  decode [0b10000100#8, 0b00000100#8, 0b00000110#8] = .ok (.st 4#8 6#8, []) ∧
  decode [0b10100001#8, 0b00000000#8, 0b00000001#8] = .ok (.sub 0#8 1#8, []) ∧
  decode [0b10101101#8, 0b00000001#8, 0b00000000#8] = .ok (.shr 1#8 0#8, [])

/-- Fetching an opcode byte outside R55's 28 raises `DecodeFault` with the opcode and pc, and execution halts; a byte
with `opcode[7:6] = 3` is never one of the 28 (R56, R57). The list is R55's, written out. -/
def Obligations.OpcodesOutsideTheMapRaiseDecodeFault : Prop :=
  let legal : List Byte :=
    [0x01#8, 0x11#8, 0x45#8, 0x46#8, 0x47#8, 0x50#8, 0x54#8, 0x55#8, 0x56#8, 0x57#8, 0x58#8, 0x59#8, 0x65#8, 0x66#8,
      0x69#8, 0x82#8, 0x84#8, 0xA0#8, 0xA1#8, 0xA2#8, 0xA3#8, 0xA4#8, 0xA7#8, 0xA8#8, 0xAA#8, 0xAB#8, 0xAC#8, 0xAD#8]
  (∀ s : State, s.halted = false → s.read s.pc ∉ legal →
    ∃ t r, step s = .next t ∧ t.halted = true ∧ t.fault = some r ∧ r.code = .decodeFault ∧
      r.opcode = s.read s.pc ∧ r.addr = s.pc) ∧
  (∀ s t : State, ∀ r, s.fault = none → step s = .next t → t.fault = some r → s.read s.pc ∈ legal →
    r.code ≠ .decodeFault) ∧
  (∀ op ∈ legal, op.toNat / 64 ≠ 3)

/-- A step runs the decoded instruction: where the bytes at pc, pc + 1 and pc + 2 (wrapping) begin with an instruction,
a step of a running core is `exec` of it at that state, and nothing is added around `exec` (the meanings advance pc). It
holds of every instruction, well-formed or not (40_execution_cycle.md R63 to R66). -/
def Obligations.StepExecutesTheDecodedInstruction : Prop :=
  ∀ (s : State) (i : Instr) (rest : List Byte), s.halted = false →
    decode [s.read s.pc, s.read (s.pc + 1#8), s.read (s.pc + 2#8)] = .ok (i, rest) → step s = exec i s

/-- About the model's own helper, not a rule of the spec: a table word stored by `State.withFetchWord` is what the next step
runs. The helper is the host's, a DESIGN CHOICE (log 4). -/
def Obligations.StoredTableWordIsTheNextInstruction : Prop :=
  ∀ (s : State) (nbits w : Nat) (i : Instr), s.halted = false → decodeTableWord nbits w = some i →
    step (s.withFetchWord nbits w) = exec i (s.withFetchWord nbits w)

/-! ### Launch, running and halting -/

/-- Launch puts every piece of state in the value 70_reset_and_hazards.md R122 gives it, for all values of the three
launch parameters. That `fault` is none and `out` empty is the spec's inference there. -/
def Obligations.LaunchPutsEveryComponentInItsResetValue : Prop :=
  ∀ (gpr : Fin 7 → Byte) (flags : Flags) (mem : Byte → Byte),
    let s := State.launch gpr flags mem
    (∀ a, s.read a = mem a) ∧ (∀ i : Fin 7, s.reg i.castSucc = gpr i) ∧ s.sp = 0xF3#8 ∧ s.pc = 0#8 ∧
      s.flags = flags ∧ s.halted = false ∧ s.fault = none ∧ s.out = []

/-- The entry point is address 0: after every launch pc is 0 and the byte the first step fetches as its opcode is `M[0]`, so
an instruction whose opcode byte the launch image has at 0 is the one executed (70_reset_and_hazards.md R123). -/
def Obligations.FirstStepFetchesAddressZero : Prop :=
  ∀ (gpr : Fin 7 → Byte) (flags : Flags) (mem : Byte → Byte),
    let s := State.launch gpr flags mem
    s.pc = 0#8 ∧ s.fetchBytes.head? = some (mem 0#8) ∧
      ∀ i : Instr, s.fetchInstr = .ok i → i.opcode = mem 0#8 ∧ step s = exec i s

/-- The invariant of the core holds at reset and after every launch. -/
def Obligations.LaunchMeetsTheCoreInvariant : Prop :=
  State.reset.Inv ∧ ∀ (gpr : Fin 7 → Byte) (flags : Flags) (mem : Byte → Byte), (State.launch gpr flags mem).Inv

/-- Every step keeps the invariant of the core: memory in canonical form; a fault record only in a halted state,
naming the address pc stands at, in the form of its cause (10_state.md R28; 60_exceptions.md R106, R111). That pc stays at
the faulting instruction is the spec's decision D9 (log 13). -/
def Obligations.EveryStepKeepsTheCoreInvariant : Prop :=
  ∀ s t : State, s.Inv → step s = .next t → t.Inv

/-- The status of a run: launched Running with no fault; `fault` is none while Running and stays none after a halt
caused by HLT; a step that records a fault halts; and Halted is terminal, no step exists (R28, R68). That the model says
"no step exists" as the stop `Fault.halted` is the model's own choice, a DESIGN CHOICE (log 6). -/
def Obligations.FaultIsNoneWhileRunningAndHaltedIsTerminal : Prop :=
  (∀ (gpr : Fin 7 → Byte) (flags : Flags) (mem : Byte → Byte),
    (State.launch gpr flags mem).halted = false ∧ (State.launch gpr flags mem).fault = none) ∧
  (∀ s t : State, s.fault = none → step s = .next t →
    (t.halted = false → t.fault = none) ∧ (s.read s.pc = 0x01#8 → t.halted = true ∧ t.fault = none) ∧
      (t.halted = true → s.read s.pc ≠ 0x01#8 → t.fault.isSome)) ∧
  (∀ s : State, s.halted = true → (∀ t, step s ≠ .next t) ∧ step s = .fault .halted)

/-- No mechanism stops a run except HLT or a fault: a running core always has a next state, and that one is halted
only if a HLT was fetched or a fault recorded; and a JMP to its own address leaves the state as it is (R71). -/
def Obligations.OnlyHltOrAFaultStopsARun : Prop :=
  (∀ s : State, s.halted = false →
    ∃ t, step s = .next t ∧ (t.halted = true → s.read s.pc = 0x01#8 ∨ t.fault.isSome)) ∧
  (∀ (s : State) (a : Byte) (ha : a.toNat < 8), s.reg ⟨a.toNat, ha⟩ = s.pc → exec (.jmp a) s = .next s)

/-! ### Faults -/

/-- A register operand byte of 8 or more in operand A takes `RegisterIndexFault(opcode, pc, (A, v))` and changes
nothing else, for every instruction with a register operand A, whatever operand B, the flags and the registers hold. The
spec's decisions D1, D9 and D11 (log 8, 13, 14). -/
def Obligations.RegisterOperandAOfEightOrMoreFaults : Prop :=
  ∀ (i : Instr) (s : State) (v : Byte), i.regA = some v → 8 ≤ v.toNat →
    exec i s = .next (s.faulted ⟨.registerIndexFault, i.opcode, s.pc, some (.A, v)⟩)

/-- With operand A legal, a register operand byte of 8 or more in operand B takes
`RegisterIndexFault(opcode, pc, (B, v))` and changes nothing else; for DIV and MOD, whatever the registers hold. The spec's
decisions D1, D9 and D11 (log 8, 13, 14). -/
def Obligations.RegisterOperandBOfEightOrMoreFaults : Prop :=
  ∀ (i : Instr) (s : State) (u v : Byte), i.regA = some u → u.toNat < 8 → i.regB = some v → 8 ≤ v.toNat →
    exec i s = .next (s.faulted ⟨.registerIndexFault, i.opcode, s.pc, some (.B, v)⟩)

/-- DIV and MOD by a register that holds 0 take `ArithmeticFault(opcode, pc)` and change nothing else; the divisor may
be the destination too. The record's contents are the spec's decision D14, and that nothing else changes D9 (log 17, 13). -/
def Obligations.DivisionByZeroFaults : Prop :=
  ∀ (s : State) (a b : Byte) (hb : b.toNat < 8), a.toNat < 8 → s.reg ⟨b.toNat, hb⟩ = 0#8 →
    exec (.div a b) s = .next (s.faulted ⟨.arithmeticFault, 0xA3#8, s.pc, none⟩) ∧
    exec (.mod a b) s = .next (s.faulted ⟨.arithmeticFault, 0xA4#8, s.pc, none⟩)

/-- The core faults on exactly these grounds: a step of a running core records no fault exactly when the bytes at pc
are a legal instruction with legal register operands that does not divide by zero (60_exceptions.md R106). The register
index ground is the spec's decision D1 (log 8). -/
def Obligations.AStepFaultsExactlyOnTheThreeCauses : Prop :=
  ∀ s : State, s.halted = false → s.fault = none →
    ∃ t, step s = .next t ∧
      (t.fault = none ↔ ∃ i, s.fetchInstr = .ok i ∧ i.wellFormed = true ∧ ¬ i.dividesByZero s)

/-- Faults are precise: a step that records a fault changes `halted` and `fault` and nothing else, and the record names
the opcode byte fetched and the address it was fetched from, which pc still holds. The spec's decision D9 (log 13). -/
def Obligations.AFaultingStepChangesOnlyHaltedAndFault : Prop :=
  ∀ (s t : State) (r : FaultRecord), s.fault = none → step s = .next t → t.fault = some r →
    t = s.faulted r ∧ r.addr = s.pc ∧ r.opcode = s.read s.pc

/-- The status code the host reads: 0 after a HLT, and after a step that faults the number of the fault, which is 1, 2
or 3 (R106, R133). The numbers are the spec's decision D10 (log 17). -/
def Obligations.StatusCodeAfterTheLastStep : Prop :=
  ∀ s t : State, s.fault = none → step s = .next t →
    (s.read s.pc = 0x01#8 → t.statusCode = some 0) ∧
    (t.halted = false → t.statusCode = none) ∧
    (∀ r, t.fault = some r → t.statusCode = some r.code.number ∧
      (r.code.number = 1 ↔ (decodeOpcode (s.read s.pc)) = none) ∧
      (r.code.number = 2 → s.read s.pc = 0xA3#8 ∨ s.read s.pc = 0xA4#8) ∧
      (r.code.number = 1 ∨ r.code.number = 2 ∨ r.code.number = 3))

/-! ### ALU results, with their frames -/

/-- ADD and MUL complete: operand A's register gets the sum, the product, mod 256, and nothing else changes but pc
(44_alu.md R89, R90, R92). Operand A's being the destination is the spec's inference (R89, log 10). -/
def Obligations.AddAndMulResults : Prop :=
  ∀ (s : State) (a b : Byte) (ha : a.toNat < 8) (hb : b.toNat < 8),
    let x := (s.reg ⟨a.toNat, ha⟩).toNat
    let y := (s.reg ⟨b.toNat, hb⟩).toNat
    CompletesWriting (.add a b) 3 s ⟨a.toNat, ha⟩ ((x + y) % 256) ∧
    CompletesWriting (.mul a b) 3 s ⟨a.toNat, ha⟩ ((x * y) % 256)

/-- SUB completes with the difference mod 256, operand B's register subtracted from operand A's; the order is the
spec's decision D3 (R91, log 10). -/
def Obligations.SubResult : Prop :=
  ∀ (s : State) (a b : Byte) (ha : a.toNat < 8) (hb : b.toNat < 8),
    let x : Int := (s.reg ⟨a.toNat, ha⟩).toNat
    let y : Int := (s.reg ⟨b.toNat, hb⟩).toNat
    CompletesWriting (.sub a b) 3 s ⟨a.toNat, ha⟩ ((x - y) % 256).toNat

/-- DIV and MOD complete when the divisor is not 0, with the floor quotient and the remainder of operand A's register
by operand B's (R93, R94); the order is the spec's decision D3 (log 10). -/
def Obligations.DivAndModResults : Prop :=
  ∀ (s : State) (a b : Byte) (ha : a.toNat < 8) (hb : b.toNat < 8),
    let x := (s.reg ⟨a.toNat, ha⟩).toNat
    let y := (s.reg ⟨b.toNat, hb⟩).toNat
    y ≠ 0 →
      CompletesWriting (.div a b) 3 s ⟨a.toNat, ha⟩ (x / y) ∧
      CompletesWriting (.mod a b) 3 s ⟨a.toNat, ha⟩ (x % y)

/-- The quotient DIV leaves and the remainder MOD leaves, run from one state with divisor `y` not 0, recompose the
dividend and the remainder is below the divisor (44_alu.md R94, R104). -/
def Obligations.QuotientAndRemainderRecomposeTheDividend : Prop :=
  ∀ (s t u : State) (a b : Byte) (ha : a.toNat < 8) (hb : b.toNat < 8), (s.reg ⟨b.toNat, hb⟩).toNat ≠ 0 →
    exec (.div a b) s = .next t → exec (.mod a b) s = .next u →
      (s.reg ⟨a.toNat, ha⟩).toNat =
        (t.reg ⟨a.toNat, ha⟩).toNat * (s.reg ⟨b.toNat, hb⟩).toNat + (u.reg ⟨a.toNat, ha⟩).toNat ∧
      (u.reg ⟨a.toNat, ha⟩).toNat < (s.reg ⟨b.toNat, hb⟩).toNat

/-- AND, OR and XOR complete with the bitwise result in operand A's register (44_alu.md R96, R97, R98), said bit by
bit; nothing else changes but pc. Operand A's being the destination is the spec's inference (R89, log 10). -/
def Obligations.BitwiseResults : Prop :=
  ∀ (s : State) (a b : Byte) (ha : a.toNat < 8) (hb : b.toNat < 8),
    let x := s.reg ⟨a.toNat, ha⟩
    let y := s.reg ⟨b.toNat, hb⟩
    ∃ vand vor vxor : Byte,
      CompletesWriting (.and a b) 3 s ⟨a.toNat, ha⟩ vand.toNat ∧
      CompletesWriting (.or a b) 3 s ⟨a.toNat, ha⟩ vor.toNat ∧
      CompletesWriting (.xor a b) 3 s ⟨a.toNat, ha⟩ vxor.toNat ∧
      ∀ k < 8, (vand.getLsbD k = true ↔ x.getLsbD k = true ∧ y.getLsbD k = true) ∧
        (vor.getLsbD k = true ↔ x.getLsbD k = true ∨ y.getLsbD k = true) ∧
        (vxor.getLsbD k = true ↔ ¬ (x.getLsbD k = true ↔ y.getLsbD k = true))

/-- SHL and SHR complete with `x * 2^y mod 256` and `x div 2^y`, the count `y` being the whole byte of operand B's
register (44_alu.md R99, R100). The operand order is the spec's decision D3 and the unmasked count D4 (log 10, 11). -/
def Obligations.ShiftResults : Prop :=
  ∀ (s : State) (a b : Byte) (ha : a.toNat < 8) (hb : b.toNat < 8),
    let x := (s.reg ⟨a.toNat, ha⟩).toNat
    let y := (s.reg ⟨b.toNat, hb⟩).toNat
    CompletesWriting (.shl a b) 3 s ⟨a.toNat, ha⟩ (x * 2 ^ y % 256) ∧
    CompletesWriting (.shr a b) 3 s ⟨a.toNat, ha⟩ (x / 2 ^ y)

/-- INC, DEC and NOT complete with `x + 1 mod 256`, `x - 1 mod 256` and `255 - x` in operand A's register, R7
included (44_alu.md R101, R102, R103). -/
def Obligations.IncDecNotResults : Prop :=
  ∀ (s : State) (a : Byte) (ha : a.toNat < 8),
    let x := (s.reg ⟨a.toNat, ha⟩).toNat
    CompletesWriting (.inc a) 2 s ⟨a.toNat, ha⟩ ((x + 1) % 256) ∧
    CompletesWriting (.dec a) 2 s ⟨a.toNat, ha⟩ (((x : Int) - 1) % 256).toNat ∧
    CompletesWriting (.not a) 2 s ⟨a.toNat, ha⟩ (255 - x)

/-- CMP completes: all three flags are recomputed as unsigned comparisons of operand A's register with operand B's,
exactly one of them is true, and no register, memory byte, status or output changes (44_alu.md R95). -/
def Obligations.CmpRecomputesTheFlags : Prop :=
  ∀ (s : State) (a b : Byte) (ha : a.toNat < 8) (hb : b.toNat < 8),
    let x := (s.reg ⟨a.toNat, ha⟩).toNat
    let y := (s.reg ⟨b.toNat, hb⟩).toNat
    ∃ f : Flags, exec (.cmp a b) s = .next { s with flags := f, pc := s.pc + 3#8 } ∧
      (f.E = true ↔ x = y) ∧ (f.G = true ↔ x > y) ∧ (f.L = true ↔ x < y) ∧ f.exactlyOne = true

/-- CMP is idempotent: run again on the state it leaves, it gives the same flags (R95; 95_test_vectors.md W2). -/
def Obligations.CmpIsIdempotent : Prop :=
  ∀ (s t : State) (a b : Byte), a.toNat < 8 → b.toNat < 8 → exec (.cmp a b) s = .next t →
    ∃ u, exec (.cmp a b) t = .next u ∧ u.flags = t.flags ∧ u = { t with pc := t.pc + 3#8 }

/-! ### Register transfer, output and HLT -/

/-- LDI completes: operand A's register gets the whole immediate byte, for every immediate, R7 included
(43_register_transfer.md R86; 30_encoding.md R52). -/
def Obligations.LdiResult : Prop :=
  ∀ (s : State) (a imm : Byte) (ha : a.toNat < 8), CompletesWriting (.ldi a imm) 3 s ⟨a.toNat, ha⟩ imm.toNat

/-- ST completes: a register copy with operand A as the destination, which writes no memory (43_register_transfer.md
R87). The direction is the spec's decision D2 (log 9). -/
def Obligations.StResult : Prop :=
  ∀ (s : State) (a b : Byte) (ha : a.toNat < 8) (hb : b.toNat < 8),
    CompletesWriting (.st a b) 3 s ⟨a.toNat, ha⟩ (s.reg ⟨b.toNat, hb⟩).toNat

/-- PRN completes: the register's value is appended to the output channel, and nothing else changes but pc
(40_execution_cycle.md R70; 10_state.md R27). -/
def Obligations.PrnAppendsTheRegister : Prop :=
  ∀ (s : State) (a : Byte) (ha : a.toNat < 8),
    exec (.prn a) s = .next { s with out := s.out ++ [s.reg ⟨a.toNat, ha⟩], pc := s.pc + 2#8 }

/-- LDI r,v then PRN r emits v, for every register and every immediate: each register reads back the last value
written to it (10_state.md R18; 95_test_vectors.md W1). -/
def Obligations.LdiThenPrnEmitsTheImmediate : Prop :=
  ∀ (s t : State) (a imm : Byte), a.toNat < 8 → exec (.ldi a imm) s = .next t →
    ∃ u, exec (.prn a) t = .next u ∧ u.out = s.out ++ [imm] ∧ MemKept s u ∧ u.flags = s.flags

/-- HLT completes: `halted` becomes true, `fault` is as it was, and no register, flag, memory byte or output is
changed; what pc holds is left open, as 70_reset_and_hazards.md R133 asks of claims (40_execution_cycle.md R69). -/
def Obligations.HltHaltsAndChangesNothingElse : Prop :=
  ∀ s : State, ∃ t, exec .hlt s = .next t ∧ t = { s with halted := true, pc := t.pc }

/-- After HLT, pc is the address after it, wrapping from 255 to 0. The spec's decision D8 (log 12): no other statement
rests on it. -/
def Obligations.HltLeavesPcAfterIt : Prop :=
  ∀ s t : State, exec .hlt s = .next t → t.pc.toNat = (s.pc.toNat + 1) % 256

/-! ### Stack and call -/

/-- PUSH of R0 to R6 completes: SP is decremented mod 256, the register's value is stored at the new SP, the register
becomes 0, and no other register, no other byte of memory, no flag, status or output changes (41_stack_call.md R73). -/
def Obligations.PushResult : Prop :=
  ∀ (s : State) (a : Byte) (ha : a.toNat < 8), a ≠ 7#8 →
    ∃ t, exec (.push a) s = .next t ∧ t.sp = s.pushAddr ∧ s.pushAddr.toNat = (s.sp.toNat + 255) % 256 ∧
      t.read s.pushAddr = s.reg ⟨a.toNat, ha⟩ ∧ t.reg ⟨a.toNat, ha⟩ = 0#8 ∧
      RegsKeptExcept [⟨a.toNat, ha⟩, 7] s t ∧ MemKeptExcept s.pushAddr s t ∧ t.flags = s.flags ∧ StatusKept s t ∧
      t.pc = s.pc + 2#8

/-- PUSH R7 completes: the decremented SP is stored at itself, and then R7 is zeroed, so SP is 0. The order is the
spec's decision D12 (R73, log 15). -/
def Obligations.PushOfR7Result : Prop :=
  ∀ s : State,
    ∃ t, exec (.push 7#8) s = .next t ∧ t.read s.pushAddr = s.pushAddr ∧ t.sp = 0#8 ∧ RegsKeptExcept [7] s t ∧
      MemKeptExcept s.pushAddr s t ∧ t.flags = s.flags ∧ StatusKept s t ∧ t.pc = s.pc + 2#8

/-- PUSH destroys its source register, for every register: after `PUSH Ra`, `Ra` = 0 (70_reset_and_hazards.md R127). -/
def Obligations.PushDestroysItsSource : Prop :=
  ∀ (s : State) (a : Byte) (ha : a.toNat < 8),
    ∃ t, exec (.push a) s = .next t ∧ t.reg ⟨a.toNat, ha⟩ = 0#8

/-- POP into R0 to R6 completes: the register gets the byte at SP, SP is incremented mod 256, and no other register, no
byte of memory, no flag, status or output changes (41_stack_call.md R74). -/
def Obligations.PopResult : Prop :=
  ∀ (s : State) (a : Byte) (ha : a.toNat < 8), a ≠ 7#8 →
    ∃ t, exec (.pop a) s = .next t ∧ t.reg ⟨a.toNat, ha⟩ = s.read s.sp ∧ t.sp.toNat = (s.sp.toNat + 1) % 256 ∧
      RegsKeptExcept [⟨a.toNat, ha⟩, 7] s t ∧ MemKept s t ∧ t.flags = s.flags ∧ StatusKept s t ∧ t.pc = s.pc + 2#8

/-- POP R7 completes with R7 = `(M[SP] + 1) mod 256`. The order is the spec's decision D12 (R74, log 15). -/
def Obligations.PopOfR7Result : Prop :=
  ∀ s : State, CompletesWriting (.pop 7#8) 2 s 7 (((s.read s.sp).toNat + 1) % 256)

/-- CALL through R0 to R6 completes: SP is decremented mod 256, the return address `(pc + 2) mod 256` is stored at the
new SP, pc becomes the register's value, and nothing else changes (41_stack_call.md R75). -/
def Obligations.CallResult : Prop :=
  ∀ (s : State) (a : Byte) (ha : a.toNat < 8), a ≠ 7#8 →
    ∃ t, exec (.call a) s = .next t ∧ t.sp = s.pushAddr ∧ (t.read s.pushAddr).toNat = (s.pc.toNat + 2) % 256 ∧
      t.pc = s.reg ⟨a.toNat, ha⟩ ∧ RegsKeptExcept [7] s t ∧ MemKeptExcept s.pushAddr s t ∧ t.flags = s.flags ∧
      StatusKept s t

/-- CALL R7 completes: the target is read after the decrement, so pc becomes the address that now holds the return
address. The order is the spec's decision D12 (R75, log 15). -/
def Obligations.CallOfR7Result : Prop :=
  ∀ s : State,
    ∃ t, exec (.call 7#8) s = .next t ∧ t.sp = s.pushAddr ∧ t.read s.pushAddr = s.pc + 2#8 ∧ t.pc = s.pushAddr ∧
      RegsKeptExcept [7] s t ∧ MemKeptExcept s.pushAddr s t ∧ t.flags = s.flags ∧ StatusKept s t

/-- RET completes: pc gets the byte at SP, SP is incremented mod 256, no general register other than R7 and no byte of
memory is written, no flag, status or output changes; its encoding is the one byte 0x11 (41_stack_call.md R76). -/
def Obligations.RetResult : Prop :=
  encode .ret = [0x11#8] ∧
  ∀ s : State,
    ∃ t, exec .ret s = .next t ∧ t.pc = s.read s.sp ∧ t.sp.toNat = (s.sp.toNat + 1) % 256 ∧ RegsKeptExcept [7] s t ∧
      MemKept s t ∧ t.flags = s.flags ∧ StatusKept s t

/-- PUSH Rr then POP Rr, for r in 0..6, restores every register and leaves the pushed byte in memory (the spec's
inference in 41_stack_call.md R74; 90_conflicts.md C4). -/
def Obligations.PushThenPopRestoresTheRegisters : Prop :=
  ∀ (s t : State) (a : Byte) (ha : a.toNat < 8), a ≠ 7#8 → exec (.push a) s = .next t →
    ∃ u, exec (.pop a) t = .next u ∧ u.regs = s.regs ∧ u.read s.pushAddr = s.reg ⟨a.toNat, ha⟩ ∧
      MemKeptExcept s.pushAddr s u

/-- CALL Rr, for r other than 7, and then RET from any state with SP and the byte at SP as CALL left them, resumes at
the CALL's address plus 2 with SP as before the CALL (the spec's inference in 41_stack_call.md R76). -/
def Obligations.CallThenRetResumesAfterTheCall : Prop :=
  ∀ (s t u : State) (a : Byte), a.toNat < 8 → a ≠ 7#8 → exec (.call a) s = .next t → u.sp = t.sp →
    u.read u.sp = t.read t.sp → ∃ v, exec .ret u = .next v ∧ v.pc = s.pc + 2#8 ∧ v.sp = s.sp

/-! ### Jumps -/

/-- The six jumps complete: pc becomes the register's value where the condition holds, else the address after the
2-byte jump; nothing else changes, in particular no flag, register or memory byte (42_jumps.md R78 to R84). -/
def Obligations.JumpResults : Prop :=
  ∀ (s : State) (a : Byte) (ha : a.toNat < 8),
    let x := s.reg ⟨a.toNat, ha⟩
    let next := s.pc + 2#8
    exec (.jmp a) s = .next { s with pc := x } ∧
    exec (.jeq a) s = .next { s with pc := if s.flags.E then x else next } ∧
    exec (.jne a) s = .next { s with pc := if s.flags.E then next else x } ∧
    exec (.jgt a) s = .next { s with pc := if s.flags.G then x else next } ∧
    exec (.jlt a) s = .next { s with pc := if s.flags.L then x else next } ∧
    exec (.jle a) s = .next { s with pc := if s.flags.L ∨ s.flags.E then x else next }

/-! ### The whole machine -/

/-- pc after a step that leaves the core running: a control transfer that is unconditional, or whose condition holds,
has set it (a jump or CALL to its register's value, read after CALL's decrement; RET to the byte at SP), and every other
operation adds `1 + opcode[7:6]`; only an operation the decoder marks `ct` redirects (R54, R67). HLT, which does not leave
the core running, is the subject of `HltLeavesPcAfterIt`. -/
def Obligations.PcIsRedirectedOrAdvanced : Prop :=
  ∀ (i : Instr) (s t : State) (e : Entry), exec i s = .next t → t.halted = false → decodeOpcode i.opcode = some e →
    (i.redirects s.flags = true → e.ct = true) ∧
    (i.redirects s.flags = false → t.pc = s.pc + BitVec.ofNat 8 (1 + operandCount i.opcode)) ∧
    (i = .ret → t.pc = s.read s.sp) ∧
    (∀ r : Reg, i = .call (BitVec.ofNat 8 r.val) → t.pc = if r = 7 then s.sp - 1#8 else s.reg r) ∧
    (∀ r : Reg, i.redirects s.flags = true → i ≠ .ret → i ≠ .call (BitVec.ofNat 8 r.val) →
      i.regA = some (BitVec.ofNat 8 r.val) → t.pc = s.reg r)

/-- The flags are written only by CMP, which recomputes all three from scratch, and read only by the conditional jumps,
each reading the flags R24 names: with other flags that agree on what the fetched opcode reads, a step does the same, leaves
those other flags alone, and a CMP that does not fault leaves the same flags whatever they were before (10_state.md R24). -/
def Obligations.FlagsAreWrittenByCmpAndReadByConditionalJumps : Prop :=
  (∀ s t : State, step s = .next t → s.read s.pc ≠ 0xA7#8 → t.flags = s.flags) ∧
  (∀ (s t : State) (f : Flags), step s = .next t → Flags.agreeOnRead (s.read s.pc) f s.flags →
    ∃ u, step { s with flags := f } = .next u ∧ { u with flags := t.flags } = t ∧
      (s.read s.pc ≠ 0xA7#8 → u.flags = f) ∧ (s.read s.pc = 0xA7#8 → t.halted = false → u.flags = t.flags))

/-- Exactly one flag is set after a CMP that does not fault, and from then on after every step; before the first CMP
the flags are the launch parameter (10_state.md R26). That the launch value is open is D6. -/
def Obligations.ExactlyOneFlagFromTheFirstCmpOn : Prop :=
  (∀ s t : State, step s = .next t → s.read s.pc = 0xA7#8 → t.halted = false → t.flags.exactlyOne = true) ∧
  (∀ s t : State, step s = .next t → s.flags.exactlyOne = true → t.flags.exactlyOne = true) ∧
  (∀ (gpr : Fin 7 → Byte) (f : Flags) (mem : Byte → Byte), (State.launch gpr f mem).flags = f)

/-- The accesses to memory are exactly R36's. Writes: a step whose opcode is neither PUSH's nor CALL's leaves every
byte, and one of those two leaves every byte but the one at the decremented SP. Reads: in a memory that agrees on the bytes
R36 lists, a step does the same, leaves every byte it does not store as that memory had it, and stores the same byte. Before the run, the
launch image sets every byte. -/
def Obligations.MemoryAccessesAreExactlyTheListedOnes : Prop :=
  (∀ s t : State, step s = .next t → s.read s.pc ≠ 0x45#8 → s.read s.pc ≠ 0x50#8 → MemKept s t) ∧
  (∀ s t : State, step s = .next t → s.read s.pc = 0x45#8 ∨ s.read s.pc = 0x50#8 → MemKeptExcept s.pushAddr s t) ∧
  (∀ (s t : State) (m : Memory), step s = .next t → s.readsAgree m →
    ∃ u, step { s with mem := m } = .next u ∧ { u with mem := t.mem } = t ∧
      (∀ x, x ≠ s.pushAddr → u.read x = Memory.read m x) ∧
      (s.read s.pc = 0x45#8 ∨ s.read s.pc = 0x50#8 → t.halted = false → u.read s.pushAddr = t.read s.pushAddr)) ∧
  (∀ (gpr : Fin 7 → Byte) (f : Flags) (mem : Byte → Byte) (a : Byte), (State.launch gpr f mem).read a = mem a)

/-- A step's only effect on the output channel is PRN's: any other opcode leaves it, and PRN leaves it (when it
faults) or appends one byte, the value of the register it names (10_state.md R27). -/
def Obligations.OutputIsExtendedOnlyByPrn : Prop :=
  ∀ s t : State, step s = .next t →
    (s.read s.pc ≠ 0x47#8 → t.out = s.out) ∧
    (s.read s.pc = 0x47#8 → (t.halted = true → t.out = s.out) ∧
      (t.halted = false → ∃ h : (s.read (s.pc + 1#8)).toNat < 8, t.out = s.out ++ [s.reg ⟨_, h⟩]))

/-- An instruction changes no register but those 10_state.md R19 and R20 let it write: operand A's for the
instructions listed there, and R7 for PUSH, POP, CALL and RET. -/
def Obligations.OnlyTheListedRegistersAreWritten : Prop :=
  ∀ (i : Instr) (s t : State) (r : Reg), exec i s = .next t → i.writesReg r = false → t.reg r = s.reg r

/-- A fetch sees stores: the byte that a PUSH stored at the address after it, or that a CALL stored at its own target, is
the opcode the next step decodes. PUSH of any register, R7 included (which stores the decremented SP), where that SP is the
address after the PUSH; CALL through any register, where the target is the address stored to, as it always is for R7. The
next step then executes the instruction with that opcode, which there is whenever the byte is a legal opcode, and an illegal
byte takes `DecodeFault` there (20_memory.md R46; 70_reset_and_hazards.md R130). Coherence is the spec's decision D13 and what
the R7 forms do D12 (log 16, 15). -/
def Obligations.ThePushedByteIsTheNextOpcodeFetched : Prop :=
  let runsAsOpcode : State → Byte → Prop := fun t v =>
    t.read t.pc = v ∧ (∀ i, t.fetchInstr = .ok i → i.opcode = v ∧ step t = exec i t) ∧
      ((decodeOpcode v).isSome → ∃ i, t.fetchInstr = .ok i) ∧
      (decodeOpcode v = none → step t = .next (t.faulted ⟨.decodeFault, v, t.pc, none⟩))
  ∀ (s t : State) (a : Byte) (ha : a.toNat < 8), s.halted = false →
    (exec (.push a) s = .next t → s.pushAddr = s.pc + 2#8 →
      runsAsOpcode t (if a = 7#8 then s.pushAddr else s.reg ⟨a.toNat, ha⟩)) ∧
    (exec (.call a) s = .next t → (a ≠ 7#8 → s.reg ⟨a.toNat, ha⟩ = s.pushAddr) → runsAsOpcode t (s.pc + 2#8))

/-- Two memories in canonical form that read alike at every address are equal, so a state's memory is what it reads. -/
def Obligations.CanonicalMemoriesThatReadAlikeAreEqual : Prop :=
  ∀ m n : Memory, Memory.wf m = true → Memory.wf n = true → (∀ a, Memory.read m a = Memory.read n a) → m = n
end

