-- ==== Sys2Proof/Laws/Decode.lean ====
section
/-! SUPPORT. What the decoder's table lookup answers for each instruction's own opcode, and what the fetch answers. -/

namespace Sys2Proof

/-- The opcode map has no two rows for one opcode (30_encoding.md R55: whole-byte match). -/
theorem opcodeMap_no_overlap : opcodeMap.Pairwise fun e f => e.opcode ≠ f.opcode := by decide

/-- Every row's format has as many operand bytes as its `opcode[7:6]` (R49). -/
theorem opcodeMap_operandCount : ∀ e ∈ opcodeMap, e.format.operands = operandCount e.opcode := by decide

/-- What the lookup finds is a row of the map for that very byte. -/
theorem decodeOpcode_some {op : Byte} {e : Entry} (h : decodeOpcode op = some e) : e ∈ opcodeMap ∧ e.opcode = op :=
  ⟨List.mem_of_find?_eq_some h, by simpa using List.find?_some h⟩

/-- An instruction's length, as the fetch computes it from the opcode byte, is that of its encoding (R59). -/
theorem instrLength_opcode (i : Instr) : instrLength i.opcode = (encode i).length := by
  cases i <;> simp only [encode, Instr.opcode, Instr.operandBytes, List.length_cons, List.length_nil] <;> decide

namespace Machine

/-- The cycle's fetch, in terms of the decoder (40_execution_cycle.md R63). -/
theorem State.fetchInstr_eq_ok {s : State} {i : Instr} :
    s.fetchInstr = .ok i ↔ ∃ rest, decode s.fetchBytes = .ok (i, rest) := by
  unfold State.fetchInstr
  cases h : decode s.fetchBytes with
  | error e => simp
  | ok p => obtain ⟨j, rest⟩ := p; simp

end Machine

end Sys2Proof
end

