-- ==== Sys2Proof/Laws/Memory.lean ====
section
/-! SUPPORT. The laws of memory: a read after a write, and that every operation keeps the canonical form. -/

namespace Sys2Proof.Machine

/-! ### Reading -/

theorem Memory.lookup_erase (m : Memory) (n k : Nat) :
    Memory.lookup k (Memory.erase n m) = if k = n then Config.unlistedByte else Memory.lookup k m := by
  induction m with
  | nil => simp [Memory.erase, Memory.lookup]
  | cons c m ih =>
    by_cases hc : c.1 = n
    · rw [Memory.erase, if_pos hc, ih]
      by_cases hk : k = n
      · simp [hk]
      · have : ¬ c.1 = k := fun h => hk (h.symm.trans hc)
        simp [hk, Memory.lookup, this]
    · rw [Memory.erase, if_neg hc]
      by_cases hk : c.1 = k
      · have : ¬ k = n := fun h => hc (hk.trans h)
        simp [Memory.lookup, hk, this]
      · simp [Memory.lookup, hk, ih]

theorem Memory.lookup_insert (m : Memory) (n k : Nat) (v : Byte) (h : k ≠ n) :
    Memory.lookup k (Memory.insert n v m) = Memory.lookup k m := by
  induction m with
  | nil => simp [Memory.insert, Memory.lookup, h.symm]
  | cons c m ih =>
    unfold Memory.insert
    split
    · simp [Memory.lookup, h.symm]
    · simp [Memory.lookup, ih]

theorem Memory.lookup_insert_erase_same (m : Memory) (n : Nat) (v : Byte) :
    Memory.lookup n (Memory.insert n v (Memory.erase n m)) = v := by
  induction m with
  | nil => simp [Memory.erase, Memory.insert, Memory.lookup]
  | cons c m ih =>
    by_cases hc : c.1 = n
    · rwa [Memory.erase, if_pos hc]
    · rw [Memory.erase, if_neg hc, Memory.insert]
      split
      · simp [Memory.lookup]
      · simp [Memory.lookup, hc, ih]

/-- A read after a write: the byte written, at its own address; the byte that was there, at every other. It holds of
every list of cells, in canonical form or not. -/
theorem Memory.read_write (m : Memory) (a v x : Byte) :
    Memory.read (Memory.write m a v) x = if x = a then v else Memory.read m x := by
  unfold Memory.read Memory.write
  by_cases hx : x = a
  · subst hx
    split
    · next hv => simp [Memory.lookup_erase, hv]
    · simp [Memory.lookup_insert_erase_same]
  · have hn : x.toNat ≠ a.toNat := fun h => hx (BitVec.eq_of_toNat_eq h)
    rw [if_neg hx]
    split <;> simp [Memory.lookup_insert, Memory.lookup_erase, hn]

theorem State.write_read (s : State) (a v x : Byte) :
    (s.write a v).read x = if x = a then v else s.read x := Memory.read_write s.mem a v x

@[simp] theorem State.write_read_same (s : State) (a v : Byte) : (s.write a v).read a = v := by
  simp [State.write_read]

theorem State.write_read_ne (s : State) {a x : Byte} (v : Byte) (h : x ≠ a) : (s.write a v).read x = s.read x := by
  simp [State.write_read, h]

/-! ### The canonical form -/

theorem Memory.wfFrom_mono {lo hi : Nat} (h : lo ≤ hi) {m : Memory} (hm : Memory.wfFrom hi m = true) :
    Memory.wfFrom lo m = true := by
  cases m with
  | nil => rfl
  | cons c m =>
    simp only [Memory.wfFrom, Bool.and_eq_true, decide_eq_true_eq] at hm ⊢
    exact ⟨⟨⟨h.trans hm.1.1.1, hm.1.1.2⟩, hm.1.2⟩, hm.2⟩

theorem Memory.erase_wfFrom {lo : Nat} {m : Memory} (n : Nat) (hm : Memory.wfFrom lo m = true) :
    Memory.wfFrom lo (Memory.erase n m) = true := by
  induction m generalizing lo with
  | nil => rfl
  | cons c m ih =>
    simp only [Memory.wfFrom, Bool.and_eq_true, decide_eq_true_eq] at hm
    unfold Memory.erase
    split
    · exact Memory.wfFrom_mono (by omega) (ih hm.2)
    · simp only [Memory.wfFrom, Bool.and_eq_true, decide_eq_true_eq]
      exact ⟨hm.1, ih hm.2⟩

theorem Memory.insert_erase_wfFrom {lo n : Nat} {v : Byte} {m : Memory} (hlo : lo ≤ n) (hn : n < Config.memSize)
    (hv : v ≠ Config.unlistedByte) (hm : Memory.wfFrom lo m = true) :
    Memory.wfFrom lo (Memory.insert n v (Memory.erase n m)) = true := by
  induction m generalizing lo with
  | nil => simp [Memory.erase, Memory.insert, Memory.wfFrom, hlo, hn, hv]
  | cons c m ih =>
    simp only [Memory.wfFrom, Bool.and_eq_true, decide_eq_true_eq] at hm
    by_cases hc : c.1 = n
    · rw [Memory.erase, if_pos hc]
      exact ih hlo (Memory.wfFrom_mono (by omega) hm.2)
    · rw [Memory.erase, if_neg hc, Memory.insert]
      split
      · next hlt =>
        simp only [Memory.wfFrom, Bool.and_eq_true, decide_eq_true_eq, bne_iff_ne]
        exact ⟨⟨⟨hlo, hn⟩, hv⟩, ⟨⟨by omega, hm.1.1.2⟩, by simpa using hm.1.2⟩, Memory.erase_wfFrom n hm.2⟩
      · simp only [Memory.wfFrom, Bool.and_eq_true, decide_eq_true_eq]
        exact ⟨hm.1, ih (by omega) hm.2⟩

/-- A write keeps the canonical form. -/
theorem Memory.write_wf {m : Memory} (a v : Byte) (hm : Memory.wf m = true) : Memory.wf (Memory.write m a v) = true := by
  unfold Memory.write
  split
  · exact Memory.erase_wfFrom _ hm
  · next hv => exact Memory.insert_erase_wfFrom (Nat.zero_le _) a.isLt hv hm

/-! ### A launch image -/

theorem Memory.cellsOf_wfFrom (image : Byte → Byte) (lo len : Nat) (h : lo + len ≤ Config.memSize) :
    Memory.wfFrom lo (Memory.cellsOf image (List.range' lo len)) = true := by
  induction len generalizing lo with
  | zero => rfl
  | succ len ih =>
    rw [List.range'_succ, Memory.cellsOf]
    have ih' := ih (lo + 1) (by omega)
    split
    · exact Memory.wfFrom_mono (by omega) ih'
    · next hv =>
      simp only [Memory.wfFrom, Bool.and_eq_true, decide_eq_true_eq, bne_iff_ne]
      exact ⟨⟨⟨le_refl _, by omega⟩, hv⟩, ih'⟩

/-- The memory of a launch image is in canonical form. -/
theorem Memory.ofImage_wf (image : Byte → Byte) : Memory.wf (Memory.ofImage image) = true :=
  Memory.cellsOf_wfFrom image 0 Config.memSize (by simp)

theorem Memory.lookup_cellsOf (image : Byte → Byte) (n : Nat) (ns : List Nat) (h : n ∈ ns) :
    Memory.lookup n (Memory.cellsOf image ns) = image (BitVec.ofNat 8 n) := by
  have miss : ∀ l : List Nat, n ∉ l → Memory.lookup n (Memory.cellsOf image l) = Config.unlistedByte := by
    intro l hl
    induction l with
    | nil => rfl
    | cons k l ih =>
      have hk : k ≠ n := fun e => hl (by simp [e])
      have hrest := ih fun e => hl (by simp [e])
      unfold Memory.cellsOf
      split
      · exact hrest
      · simp [Memory.lookup, hk, hrest]
  induction ns with
  | nil => simp at h
  | cons k ns ih =>
    by_cases hk : k = n
    · subst hk
      unfold Memory.cellsOf
      split
      · next hv =>
        by_cases hmem : k ∈ ns
        · exact ih hmem
        · rw [miss ns hmem, hv]
      · simp [Memory.lookup]
    · have hmem : n ∈ ns := by simpa [Ne.symm hk] using h
      unfold Memory.cellsOf
      split
      · exact ih hmem
      · simp [Memory.lookup, hk, ih hmem]

/-- Every address of a launched memory reads as the image's byte. -/
theorem Memory.read_ofImage (image : Byte → Byte) (a : Byte) : Memory.read (Memory.ofImage image) a = image a := by
  have h : a.toNat ∈ List.range' 0 Config.memSize := by
    have := a.isLt
    simp [List.mem_range', Config.memSize]
    omega
  simp [Memory.read, Memory.ofImage, Memory.lookup_cellsOf image _ _ h]

/-- A program's image holds the program's byte at each address the program reaches. -/
theorem programImage_inside {program : List Byte} {rest : Byte → Byte} {a : Byte} (h : a.toNat < program.length) :
    programImage program rest a = program[a.toNat] := by
  simp [programImage, h]

/-- Above the program, the image is `rest`. -/
theorem programImage_above {program : List Byte} {rest : Byte → Byte} {a : Byte} (h : program.length ≤ a.toNat) :
    programImage program rest a = rest a := by
  simp [programImage, h]

/-- No byte of a program past address 255 is in its image (DESIGN CHOICE, log 27). -/
theorem programImage_take (program : List Byte) (rest : Byte → Byte) :
    programImage program rest = programImage (program.take 256) rest := by
  funext a
  have := a.isLt
  unfold programImage
  rw [List.getD_eq_getElem?_getD, List.getD_eq_getElem?_getD, List.getElem?_take_of_lt this]

/-- Reset's memory is in canonical form. -/
theorem State.reset_memWf : Memory.wf State.reset.mem = true := rfl

/-- Reset's memory reads `Config.unlistedByte` everywhere. -/
theorem State.reset_read (a : Byte) : State.reset.read a = Config.unlistedByte := rfl

end Sys2Proof.Machine
end

