-- ==== Sys2Proof/Laws/State.lean ====
section
/-! SUPPORT. One lemma per field of State per update of it, each true by rfl, so that no later proof unfolds a record
update; and what the register and memory accessors read after each update. -/

namespace Sys2Proof.Machine

/-! ### The register file -/

theorem Regs.get_set (f : Regs) (i j : Reg) (v : Byte) :
    (f.set i v).get j = if j = i then v else f.get j := by
  fin_cases i <;> fin_cases j <;> rfl

@[simp] theorem Regs.get_set_same (f : Regs) (i : Reg) (v : Byte) : (f.set i v).get i = v := by
  simp [Regs.get_set]

theorem Regs.get_set_ne (f : Regs) {i j : Reg} (v : Byte) (h : j ≠ i) : (f.set i v).get j = f.get j := by
  simp [Regs.get_set, h]

/-- Two register files that read alike are equal. -/
theorem Regs.ext_get {f g : Regs} (h : ∀ i, f.get i = g.get i) : f = g := by
  obtain ⟨⟩ := f
  obtain ⟨⟩ := g
  have h0 := h 0; have h1 := h 1; have h2 := h 2; have h3 := h 3
  have h4 := h 4; have h5 := h 5; have h6 := h 6; have h7 := h 7
  simp only [Regs.get] at h0 h1 h2 h3 h4 h5 h6 h7
  subst h0 h1 h2 h3 h4 h5 h6 h7
  rfl

/-! ### `setReg` -/

@[simp] theorem State.setReg_mem (s : State) (i : Reg) (v : Byte) : (s.setReg i v).mem = s.mem := rfl
@[simp] theorem State.setReg_regs (s : State) (i : Reg) (v : Byte) : (s.setReg i v).regs = s.regs.set i v := rfl
@[simp] theorem State.setReg_pc (s : State) (i : Reg) (v : Byte) : (s.setReg i v).pc = s.pc := rfl
@[simp] theorem State.setReg_flags (s : State) (i : Reg) (v : Byte) : (s.setReg i v).flags = s.flags := rfl
@[simp] theorem State.setReg_halted (s : State) (i : Reg) (v : Byte) : (s.setReg i v).halted = s.halted := rfl
@[simp] theorem State.setReg_fault (s : State) (i : Reg) (v : Byte) : (s.setReg i v).fault = s.fault := rfl
@[simp] theorem State.setReg_out (s : State) (i : Reg) (v : Byte) : (s.setReg i v).out = s.out := rfl
@[simp] theorem State.setReg_read (s : State) (i : Reg) (v : Byte) (x : Byte) : (s.setReg i v).read x = s.read x := rfl

/-! ### `setSp` -/

@[simp] theorem State.setSp_mem (s : State) (v : Byte) : (s.setSp v).mem = s.mem := rfl
@[simp] theorem State.setSp_regs (s : State) (v : Byte) : (s.setSp v).regs = s.regs.set Config.spReg v := rfl
@[simp] theorem State.setSp_pc (s : State) (v : Byte) : (s.setSp v).pc = s.pc := rfl
@[simp] theorem State.setSp_flags (s : State) (v : Byte) : (s.setSp v).flags = s.flags := rfl
@[simp] theorem State.setSp_halted (s : State) (v : Byte) : (s.setSp v).halted = s.halted := rfl
@[simp] theorem State.setSp_fault (s : State) (v : Byte) : (s.setSp v).fault = s.fault := rfl
@[simp] theorem State.setSp_out (s : State) (v : Byte) : (s.setSp v).out = s.out := rfl
@[simp] theorem State.setSp_read (s : State) (v : Byte) (x : Byte) : (s.setSp v).read x = s.read x := rfl

/-! ### `write` -/

@[simp] theorem State.write_mem (s : State) (a v : Byte) : (s.write a v).mem = Memory.write s.mem a v := rfl
@[simp] theorem State.write_regs (s : State) (a v : Byte) : (s.write a v).regs = s.regs := rfl
@[simp] theorem State.write_pc (s : State) (a v : Byte) : (s.write a v).pc = s.pc := rfl
@[simp] theorem State.write_flags (s : State) (a v : Byte) : (s.write a v).flags = s.flags := rfl
@[simp] theorem State.write_halted (s : State) (a v : Byte) : (s.write a v).halted = s.halted := rfl
@[simp] theorem State.write_fault (s : State) (a v : Byte) : (s.write a v).fault = s.fault := rfl
@[simp] theorem State.write_out (s : State) (a v : Byte) : (s.write a v).out = s.out := rfl
@[simp] theorem State.write_reg (s : State) (a v : Byte) (r : Reg) : (s.write a v).reg r = s.reg r := rfl
@[simp] theorem State.write_sp (s : State) (a v : Byte) : (s.write a v).sp = s.sp := rfl

/-! ### `emit` -/

@[simp] theorem State.emit_mem (s : State) (v : Byte) : (s.emit v).mem = s.mem := rfl
@[simp] theorem State.emit_regs (s : State) (v : Byte) : (s.emit v).regs = s.regs := rfl
@[simp] theorem State.emit_pc (s : State) (v : Byte) : (s.emit v).pc = s.pc := rfl
@[simp] theorem State.emit_flags (s : State) (v : Byte) : (s.emit v).flags = s.flags := rfl
@[simp] theorem State.emit_halted (s : State) (v : Byte) : (s.emit v).halted = s.halted := rfl
@[simp] theorem State.emit_fault (s : State) (v : Byte) : (s.emit v).fault = s.fault := rfl
@[simp] theorem State.emit_out (s : State) (v : Byte) : (s.emit v).out = s.out ++ [v] := rfl
@[simp] theorem State.emit_reg (s : State) (v : Byte) (r : Reg) : (s.emit v).reg r = s.reg r := rfl
@[simp] theorem State.emit_sp (s : State) (v : Byte) : (s.emit v).sp = s.sp := rfl
@[simp] theorem State.emit_read (s : State) (v : Byte) (x : Byte) : (s.emit v).read x = s.read x := rfl

/-! ### `setPc` -/

@[simp] theorem State.setPc_mem (s : State) (p : Byte) : (s.setPc p).mem = s.mem := rfl
@[simp] theorem State.setPc_regs (s : State) (p : Byte) : (s.setPc p).regs = s.regs := rfl
@[simp] theorem State.setPc_pc (s : State) (p : Byte) : (s.setPc p).pc = p := rfl
@[simp] theorem State.setPc_flags (s : State) (p : Byte) : (s.setPc p).flags = s.flags := rfl
@[simp] theorem State.setPc_halted (s : State) (p : Byte) : (s.setPc p).halted = s.halted := rfl
@[simp] theorem State.setPc_fault (s : State) (p : Byte) : (s.setPc p).fault = s.fault := rfl
@[simp] theorem State.setPc_out (s : State) (p : Byte) : (s.setPc p).out = s.out := rfl
@[simp] theorem State.setPc_reg (s : State) (p : Byte) (r : Reg) : (s.setPc p).reg r = s.reg r := rfl
@[simp] theorem State.setPc_sp (s : State) (p : Byte) : (s.setPc p).sp = s.sp := rfl
@[simp] theorem State.setPc_read (s : State) (p : Byte) (x : Byte) : (s.setPc p).read x = s.read x := rfl

/-! ### `advance` -/

@[simp] theorem State.advance_mem (s : State) (n : Nat) : (s.advance n).mem = s.mem := rfl
@[simp] theorem State.advance_regs (s : State) (n : Nat) : (s.advance n).regs = s.regs := rfl
@[simp] theorem State.advance_pc (s : State) (n : Nat) : (s.advance n).pc = s.pc + BitVec.ofNat 8 (1 + n) := rfl
@[simp] theorem State.advance_flags (s : State) (n : Nat) : (s.advance n).flags = s.flags := rfl
@[simp] theorem State.advance_halted (s : State) (n : Nat) : (s.advance n).halted = s.halted := rfl
@[simp] theorem State.advance_fault (s : State) (n : Nat) : (s.advance n).fault = s.fault := rfl
@[simp] theorem State.advance_out (s : State) (n : Nat) : (s.advance n).out = s.out := rfl
@[simp] theorem State.advance_reg (s : State) (n : Nat) (r : Reg) : (s.advance n).reg r = s.reg r := rfl
@[simp] theorem State.advance_sp (s : State) (n : Nat) : (s.advance n).sp = s.sp := rfl
@[simp] theorem State.advance_read (s : State) (n : Nat) (x : Byte) : (s.advance n).read x = s.read x := rfl

/-! ### `setFlags` -/

@[simp] theorem State.setFlags_mem (s : State) (f : Flags) : (s.setFlags f).mem = s.mem := rfl
@[simp] theorem State.setFlags_regs (s : State) (f : Flags) : (s.setFlags f).regs = s.regs := rfl
@[simp] theorem State.setFlags_pc (s : State) (f : Flags) : (s.setFlags f).pc = s.pc := rfl
@[simp] theorem State.setFlags_flags (s : State) (f : Flags) : (s.setFlags f).flags = f := rfl
@[simp] theorem State.setFlags_halted (s : State) (f : Flags) : (s.setFlags f).halted = s.halted := rfl
@[simp] theorem State.setFlags_fault (s : State) (f : Flags) : (s.setFlags f).fault = s.fault := rfl
@[simp] theorem State.setFlags_out (s : State) (f : Flags) : (s.setFlags f).out = s.out := rfl
@[simp] theorem State.setFlags_reg (s : State) (f : Flags) (r : Reg) : (s.setFlags f).reg r = s.reg r := rfl
@[simp] theorem State.setFlags_sp (s : State) (f : Flags) : (s.setFlags f).sp = s.sp := rfl
@[simp] theorem State.setFlags_read (s : State) (f : Flags) (x : Byte) : (s.setFlags f).read x = s.read x := rfl

/-! ### `halt` -/

@[simp] theorem State.halt_mem (s : State) : (s.halt).mem = s.mem := rfl
@[simp] theorem State.halt_regs (s : State) : (s.halt).regs = s.regs := rfl
@[simp] theorem State.halt_pc (s : State) : (s.halt).pc = s.pc := rfl
@[simp] theorem State.halt_flags (s : State) : (s.halt).flags = s.flags := rfl
@[simp] theorem State.halt_halted (s : State) : (s.halt).halted = true := rfl
@[simp] theorem State.halt_fault (s : State) : (s.halt).fault = s.fault := rfl
@[simp] theorem State.halt_out (s : State) : (s.halt).out = s.out := rfl
@[simp] theorem State.halt_reg (s : State) (r : Reg) : (s.halt).reg r = s.reg r := rfl
@[simp] theorem State.halt_sp (s : State) : (s.halt).sp = s.sp := rfl
@[simp] theorem State.halt_read (s : State) (x : Byte) : (s.halt).read x = s.read x := rfl

/-! ### `takeFault` -/

@[simp] theorem State.takeFault_mem (s : State) (c : FaultCode) (o : Byte) (d : Option (OperandPos × Byte)) : (s.takeFault c o d).mem = s.mem := rfl
@[simp] theorem State.takeFault_regs (s : State) (c : FaultCode) (o : Byte) (d : Option (OperandPos × Byte)) : (s.takeFault c o d).regs = s.regs := rfl
@[simp] theorem State.takeFault_pc (s : State) (c : FaultCode) (o : Byte) (d : Option (OperandPos × Byte)) : (s.takeFault c o d).pc = s.pc := rfl
@[simp] theorem State.takeFault_flags (s : State) (c : FaultCode) (o : Byte) (d : Option (OperandPos × Byte)) : (s.takeFault c o d).flags = s.flags := rfl
@[simp] theorem State.takeFault_halted (s : State) (c : FaultCode) (o : Byte) (d : Option (OperandPos × Byte)) : (s.takeFault c o d).halted = true := rfl
@[simp] theorem State.takeFault_fault (s : State) (c : FaultCode) (o : Byte) (d : Option (OperandPos × Byte)) : (s.takeFault c o d).fault = some { code := c, opcode := o, addr := s.pc, detail := d } := rfl
@[simp] theorem State.takeFault_out (s : State) (c : FaultCode) (o : Byte) (d : Option (OperandPos × Byte)) : (s.takeFault c o d).out = s.out := rfl
@[simp] theorem State.takeFault_reg (s : State) (c : FaultCode) (o : Byte) (d : Option (OperandPos × Byte)) (r : Reg) : (s.takeFault c o d).reg r = s.reg r := rfl
@[simp] theorem State.takeFault_sp (s : State) (c : FaultCode) (o : Byte) (d : Option (OperandPos × Byte)) : (s.takeFault c o d).sp = s.sp := rfl
@[simp] theorem State.takeFault_read (s : State) (c : FaultCode) (o : Byte) (d : Option (OperandPos × Byte)) (x : Byte) : (s.takeFault c o d).read x = s.read x := rfl

/-! ### `preDecSp` -/

@[simp] theorem State.preDecSp_mem (s : State) : (s.preDecSp).mem = s.mem := rfl
@[simp] theorem State.preDecSp_regs (s : State) : (s.preDecSp).regs = s.regs.set Config.spReg s.pushAddr := rfl
@[simp] theorem State.preDecSp_pc (s : State) : (s.preDecSp).pc = s.pc := rfl
@[simp] theorem State.preDecSp_flags (s : State) : (s.preDecSp).flags = s.flags := rfl
@[simp] theorem State.preDecSp_halted (s : State) : (s.preDecSp).halted = s.halted := rfl
@[simp] theorem State.preDecSp_fault (s : State) : (s.preDecSp).fault = s.fault := rfl
@[simp] theorem State.preDecSp_out (s : State) : (s.preDecSp).out = s.out := rfl
@[simp] theorem State.preDecSp_read (s : State) (x : Byte) : (s.preDecSp).read x = s.read x := rfl

/-! ### `postIncSp` -/

@[simp] theorem State.postIncSp_mem (s : State) : (s.postIncSp).mem = s.mem := rfl
@[simp] theorem State.postIncSp_regs (s : State) : (s.postIncSp).regs = s.regs.set Config.spReg (s.sp + 1#8) := rfl
@[simp] theorem State.postIncSp_pc (s : State) : (s.postIncSp).pc = s.pc := rfl
@[simp] theorem State.postIncSp_flags (s : State) : (s.postIncSp).flags = s.flags := rfl
@[simp] theorem State.postIncSp_halted (s : State) : (s.postIncSp).halted = s.halted := rfl
@[simp] theorem State.postIncSp_fault (s : State) : (s.postIncSp).fault = s.fault := rfl
@[simp] theorem State.postIncSp_out (s : State) : (s.postIncSp).out = s.out := rfl
@[simp] theorem State.postIncSp_read (s : State) (x : Byte) : (s.postIncSp).read x = s.read x := rfl

/-! ### Reading a register after a write to one -/

theorem State.setReg_reg (s : State) (i r : Reg) (v : Byte) :
    (s.setReg i v).reg r = if r = i then v else s.reg r := Regs.get_set s.regs i r v

@[simp] theorem State.setReg_reg_same (s : State) (i : Reg) (v : Byte) : (s.setReg i v).reg i = v :=
  Regs.get_set_same s.regs i v

theorem State.setReg_reg_ne (s : State) {i r : Reg} (v : Byte) (h : r ≠ i) : (s.setReg i v).reg r = s.reg r :=
  Regs.get_set_ne s.regs v h

theorem State.preDecSp_reg (s : State) (r : Reg) :
    s.preDecSp.reg r = if r = Config.spReg then s.pushAddr else s.reg r := State.setReg_reg s Config.spReg r _

theorem State.postIncSp_reg (s : State) (r : Reg) :
    s.postIncSp.reg r = if r = Config.spReg then s.sp + 1#8 else s.reg r := State.setReg_reg s Config.spReg r _

@[simp] theorem State.preDecSp_sp (s : State) : s.preDecSp.sp = s.pushAddr := State.setReg_reg_same s _ _

@[simp] theorem State.postIncSp_sp (s : State) : s.postIncSp.sp = s.sp + 1#8 := State.setReg_reg_same s _ _

theorem State.preDecSp_reg_ne (s : State) {r : Reg} (h : r ≠ Config.spReg) : s.preDecSp.reg r = s.reg r :=
  State.setReg_reg_ne s _ h

theorem State.postIncSp_reg_ne (s : State) {r : Reg} (h : r ≠ Config.spReg) : s.postIncSp.reg r = s.reg r :=
  State.setReg_reg_ne s _ h

end Sys2Proof.Machine
end

