-- ==== Sys2Proof/Laws/Ops.lean ====
section
/-! SUPPORT. For each shared operation, once, everything it can do. -/

namespace Sys2Proof.Machine

/-! ### The register operand -/

theorem selectReg_legal {v : Byte} (h : v.toNat < 8) : selectReg v = some ⟨v.toNat, h⟩ := by
  simp [selectReg, h]

theorem selectReg_illegal {v : Byte} (h : 8 ≤ v.toNat) : selectReg v = none := by
  simp [selectReg, Nat.not_lt.mpr h]

theorem withReg_legal {opcode v : Byte} {which : OperandPos} {s : State} {k : Reg → Result} (h : v.toNat < 8) :
    withReg opcode which v s k = k ⟨v.toNat, h⟩ := by
  simp [withReg, selectReg_legal h]

theorem withReg_illegal {opcode v : Byte} {which : OperandPos} {s : State} {k : Reg → Result} (h : 8 ≤ v.toNat) :
    withReg opcode which v s k = .next (s.takeFault .registerIndexFault opcode (some (which, v))) := by
  simp [withReg, selectReg_illegal h]

/-- The two things `withReg` can do. -/
theorem withReg_cases (opcode v : Byte) (which : OperandPos) (s : State) (k : Reg → Result) :
    (∃ h : v.toNat < 8, withReg opcode which v s k = k ⟨v.toNat, h⟩) ∨
    (8 ≤ v.toNat ∧
      withReg opcode which v s k = .next (s.takeFault .registerIndexFault opcode (some (which, v)))) := by
  by_cases h : v.toNat < 8
  · exact .inl ⟨h, withReg_legal h⟩
  · exact .inr ⟨by omega, withReg_illegal (by omega)⟩

/-- The three things `withRegs` can do, in the order of 60_exceptions.md R110. -/
theorem withRegs_cases (opcode a b : Byte) (s : State) (k : Reg → Reg → Result) :
    (∃ (ha : a.toNat < 8) (hb : b.toNat < 8), withRegs opcode a b s k = k ⟨a.toNat, ha⟩ ⟨b.toNat, hb⟩) ∨
    (8 ≤ a.toNat ∧ withRegs opcode a b s k = .next (s.takeFault .registerIndexFault opcode (some (.A, a)))) ∨
    (a.toNat < 8 ∧ 8 ≤ b.toNat ∧
      withRegs opcode a b s k = .next (s.takeFault .registerIndexFault opcode (some (.B, b)))) := by
  unfold withRegs
  obtain ⟨ha, h⟩ | ⟨ha, h⟩ := withReg_cases opcode a .A s fun ra => withReg opcode .B b s fun rb => k ra rb
  · obtain ⟨hb, h'⟩ | ⟨hb, h'⟩ := withReg_cases opcode b .B s fun rb => k ⟨a.toNat, ha⟩ rb
    · exact .inl ⟨ha, hb, h.trans h'⟩
    · exact .inr (.inr ⟨ha, hb, h.trans h'⟩)
  · exact .inr (.inl ⟨ha, h⟩)

/-! ### The forms of the ALU and the jumps, where their operands are legal -/

theorem aluBinary_legal {opcode a b : Byte} {f : Byte → Byte → Byte} {s : State} (ha : a.toNat < 8) (hb : b.toNat < 8) :
    aluBinary opcode f a b s =
      .next ((s.setReg ⟨a.toNat, ha⟩ (f (s.reg ⟨a.toNat, ha⟩) (s.reg ⟨b.toNat, hb⟩))).advance 2) := by
  simp [aluBinary, withRegs, withReg_legal ha, withReg_legal hb]

theorem aluDivide_legal {opcode a b : Byte} {f : Byte → Byte → Byte} {s : State} (ha : a.toNat < 8) (hb : b.toNat < 8) :
    aluDivide opcode f a b s =
      if s.reg ⟨b.toNat, hb⟩ = 0#8 then .next (s.takeFault .arithmeticFault opcode none)
      else .next ((s.setReg ⟨a.toNat, ha⟩ (f (s.reg ⟨a.toNat, ha⟩) (s.reg ⟨b.toNat, hb⟩))).advance 2) := by
  simp [aluDivide, withRegs, withReg_legal ha, withReg_legal hb]

theorem aluUnary_legal {opcode a : Byte} {g : Byte → Byte} {s : State} (ha : a.toNat < 8) :
    aluUnary opcode g a s = .next ((s.setReg ⟨a.toNat, ha⟩ (g (s.reg ⟨a.toNat, ha⟩))).advance 1) := by
  simp [aluUnary, withReg_legal ha]

theorem jumpIf_legal {opcode a : Byte} {cond : Flags → Bool} {s : State} (ha : a.toNat < 8) :
    jumpIf opcode cond a s =
      .next { s with pc := if cond s.flags then s.reg ⟨a.toNat, ha⟩ else s.pc + 2#8 } := by
  rw [jumpIf, withReg_legal ha]
  cases cond s.flags <;> rfl

/-! ### The ALU's functions, as the bit-vector operations of the same name -/

theorem aluAdd_eq (s t : Byte) : aluAdd s t = s + t := by
  apply BitVec.eq_of_toNat_eq; simp [aluAdd]

theorem aluSub_eq (s t : Byte) : aluSub s t = s - t := by
  apply BitVec.eq_of_toNat_eq
  have := s.isLt
  have := t.isLt
  simp only [aluSub, BitVec.toNat_ofInt, BitVec.toNat_sub]
  omega

theorem aluMul_eq (s t : Byte) : aluMul s t = s * t := by
  apply BitVec.eq_of_toNat_eq; simp [aluMul]

theorem aluDiv_eq (s t : Byte) : aluDiv s t = s / t := by
  apply BitVec.eq_of_toNat_eq
  have : s.toNat / t.toNat < 256 := lt_of_le_of_lt (Nat.div_le_self _ _) s.isLt
  simp only [aluDiv, BitVec.toNat_ofNat, BitVec.toNat_udiv]
  exact Nat.mod_eq_of_lt this

theorem aluMod_eq (s t : Byte) : aluMod s t = s % t := by
  apply BitVec.eq_of_toNat_eq
  have : s.toNat % t.toNat < 256 := lt_of_le_of_lt (Nat.mod_le _ _) s.isLt
  simp only [aluMod, BitVec.toNat_ofNat, BitVec.toNat_umod]
  exact Nat.mod_eq_of_lt this

theorem aluShl_eq (s t : Byte) : aluShl s t = s <<< t.toNat := by
  apply BitVec.eq_of_toNat_eq
  simp [aluShl, Nat.shiftLeft_eq]

theorem aluShr_eq (s t : Byte) : aluShr s t = s >>> t.toNat := by
  apply BitVec.eq_of_toNat_eq
  have : s.toNat / 2 ^ t.toNat < 256 := lt_of_le_of_lt (Nat.div_le_self _ _) s.isLt
  simp only [aluShr, BitVec.toNat_ofNat, BitVec.toNat_ushiftRight, Nat.shiftRight_eq_div_pow]
  exact Nat.mod_eq_of_lt this

theorem aluNot_eq (s : Byte) : aluNot s = ~~~ s := by
  apply BitVec.eq_of_toNat_eq
  have := s.isLt
  simp [aluNot]
  omega

/-- A shift by 8 or more gives 0 (44_alu.md R99). -/
theorem aluShl_wide {s t : Byte} (h : 8 ≤ t.toNat) : aluShl s t = 0#8 := by
  rw [aluShl_eq]; exact BitVec.shiftLeft_eq_zero h

/-- A shift by 8 or more gives 0 (R100). -/
theorem aluShr_wide {s t : Byte} (h : 8 ≤ t.toNat) : aluShr s t = 0#8 := by
  rw [aluShr_eq]; exact BitVec.ushiftRight_eq_zero h

/-- The three flags CMP computes, as unsigned comparisons (44_alu.md R95). -/
theorem compareFlags_toNat (s t : Byte) :
    ((compareFlags s t).E = true ↔ s.toNat = t.toNat) ∧ ((compareFlags s t).G = true ↔ s.toNat > t.toNat) ∧
      ((compareFlags s t).L = true ↔ s.toNat < t.toNat) := by
  simp [compareFlags]

end Sys2Proof.Machine
end

