-- ==== Sys2Proof/Laws/PerInstr.lean ====
section
/-! SUPPORT. Families of facts about an instruction as syntax, one lemma per constructor of Instr. -/

/-- The encoding of an instruction has one opcode byte and `opcode[7:6]` operand bytes (30_encoding.md R49, R59). -/
def Sys2Proof.Laws.EncodeLength.Statement (i : Sys2Proof.Instr) : Prop :=
  (Sys2Proof.encode i).length = 1 + Sys2Proof.operandCount i.opcode

theorem Sys2Proof.Laws.EncodeLength.hlt : Statement .hlt := by
  simp [Statement, Sys2Proof.encode, Sys2Proof.Instr.operandBytes, Sys2Proof.Instr.opcode, Sys2Proof.operandCount]

theorem Sys2Proof.Laws.EncodeLength.ret : Statement .ret := by
  simp [Statement, Sys2Proof.encode, Sys2Proof.Instr.operandBytes, Sys2Proof.Instr.opcode, Sys2Proof.operandCount]

theorem Sys2Proof.Laws.EncodeLength.push (a : Sys2Proof.Byte) : Statement (.push a) := by
  simp [Statement, Sys2Proof.encode, Sys2Proof.Instr.operandBytes, Sys2Proof.Instr.opcode, Sys2Proof.operandCount]

theorem Sys2Proof.Laws.EncodeLength.pop (a : Sys2Proof.Byte) : Statement (.pop a) := by
  simp [Statement, Sys2Proof.encode, Sys2Proof.Instr.operandBytes, Sys2Proof.Instr.opcode, Sys2Proof.operandCount]

theorem Sys2Proof.Laws.EncodeLength.prn (a : Sys2Proof.Byte) : Statement (.prn a) := by
  simp [Statement, Sys2Proof.encode, Sys2Proof.Instr.operandBytes, Sys2Proof.Instr.opcode, Sys2Proof.operandCount]

theorem Sys2Proof.Laws.EncodeLength.call (a : Sys2Proof.Byte) : Statement (.call a) := by
  simp [Statement, Sys2Proof.encode, Sys2Proof.Instr.operandBytes, Sys2Proof.Instr.opcode, Sys2Proof.operandCount]

theorem Sys2Proof.Laws.EncodeLength.jmp (a : Sys2Proof.Byte) : Statement (.jmp a) := by
  simp [Statement, Sys2Proof.encode, Sys2Proof.Instr.operandBytes, Sys2Proof.Instr.opcode, Sys2Proof.operandCount]

theorem Sys2Proof.Laws.EncodeLength.jeq (a : Sys2Proof.Byte) : Statement (.jeq a) := by
  simp [Statement, Sys2Proof.encode, Sys2Proof.Instr.operandBytes, Sys2Proof.Instr.opcode, Sys2Proof.operandCount]

theorem Sys2Proof.Laws.EncodeLength.jne (a : Sys2Proof.Byte) : Statement (.jne a) := by
  simp [Statement, Sys2Proof.encode, Sys2Proof.Instr.operandBytes, Sys2Proof.Instr.opcode, Sys2Proof.operandCount]

theorem Sys2Proof.Laws.EncodeLength.jgt (a : Sys2Proof.Byte) : Statement (.jgt a) := by
  simp [Statement, Sys2Proof.encode, Sys2Proof.Instr.operandBytes, Sys2Proof.Instr.opcode, Sys2Proof.operandCount]

theorem Sys2Proof.Laws.EncodeLength.jlt (a : Sys2Proof.Byte) : Statement (.jlt a) := by
  simp [Statement, Sys2Proof.encode, Sys2Proof.Instr.operandBytes, Sys2Proof.Instr.opcode, Sys2Proof.operandCount]

theorem Sys2Proof.Laws.EncodeLength.jle (a : Sys2Proof.Byte) : Statement (.jle a) := by
  simp [Statement, Sys2Proof.encode, Sys2Proof.Instr.operandBytes, Sys2Proof.Instr.opcode, Sys2Proof.operandCount]

theorem Sys2Proof.Laws.EncodeLength.inc (a : Sys2Proof.Byte) : Statement (.inc a) := by
  simp [Statement, Sys2Proof.encode, Sys2Proof.Instr.operandBytes, Sys2Proof.Instr.opcode, Sys2Proof.operandCount]

theorem Sys2Proof.Laws.EncodeLength.dec (a : Sys2Proof.Byte) : Statement (.dec a) := by
  simp [Statement, Sys2Proof.encode, Sys2Proof.Instr.operandBytes, Sys2Proof.Instr.opcode, Sys2Proof.operandCount]

theorem Sys2Proof.Laws.EncodeLength.not (a : Sys2Proof.Byte) : Statement (.not a) := by
  simp [Statement, Sys2Proof.encode, Sys2Proof.Instr.operandBytes, Sys2Proof.Instr.opcode, Sys2Proof.operandCount]

theorem Sys2Proof.Laws.EncodeLength.ldi (a b : Sys2Proof.Byte) : Statement (.ldi a b) := by
  simp [Statement, Sys2Proof.encode, Sys2Proof.Instr.operandBytes, Sys2Proof.Instr.opcode, Sys2Proof.operandCount]

theorem Sys2Proof.Laws.EncodeLength.st (a b : Sys2Proof.Byte) : Statement (.st a b) := by
  simp [Statement, Sys2Proof.encode, Sys2Proof.Instr.operandBytes, Sys2Proof.Instr.opcode, Sys2Proof.operandCount]

theorem Sys2Proof.Laws.EncodeLength.add (a b : Sys2Proof.Byte) : Statement (.add a b) := by
  simp [Statement, Sys2Proof.encode, Sys2Proof.Instr.operandBytes, Sys2Proof.Instr.opcode, Sys2Proof.operandCount]

theorem Sys2Proof.Laws.EncodeLength.sub (a b : Sys2Proof.Byte) : Statement (.sub a b) := by
  simp [Statement, Sys2Proof.encode, Sys2Proof.Instr.operandBytes, Sys2Proof.Instr.opcode, Sys2Proof.operandCount]

theorem Sys2Proof.Laws.EncodeLength.mul (a b : Sys2Proof.Byte) : Statement (.mul a b) := by
  simp [Statement, Sys2Proof.encode, Sys2Proof.Instr.operandBytes, Sys2Proof.Instr.opcode, Sys2Proof.operandCount]

theorem Sys2Proof.Laws.EncodeLength.div (a b : Sys2Proof.Byte) : Statement (.div a b) := by
  simp [Statement, Sys2Proof.encode, Sys2Proof.Instr.operandBytes, Sys2Proof.Instr.opcode, Sys2Proof.operandCount]

theorem Sys2Proof.Laws.EncodeLength.mod (a b : Sys2Proof.Byte) : Statement (.mod a b) := by
  simp [Statement, Sys2Proof.encode, Sys2Proof.Instr.operandBytes, Sys2Proof.Instr.opcode, Sys2Proof.operandCount]

theorem Sys2Proof.Laws.EncodeLength.cmp (a b : Sys2Proof.Byte) : Statement (.cmp a b) := by
  simp [Statement, Sys2Proof.encode, Sys2Proof.Instr.operandBytes, Sys2Proof.Instr.opcode, Sys2Proof.operandCount]

theorem Sys2Proof.Laws.EncodeLength.and (a b : Sys2Proof.Byte) : Statement (.and a b) := by
  simp [Statement, Sys2Proof.encode, Sys2Proof.Instr.operandBytes, Sys2Proof.Instr.opcode, Sys2Proof.operandCount]

theorem Sys2Proof.Laws.EncodeLength.or (a b : Sys2Proof.Byte) : Statement (.or a b) := by
  simp [Statement, Sys2Proof.encode, Sys2Proof.Instr.operandBytes, Sys2Proof.Instr.opcode, Sys2Proof.operandCount]

theorem Sys2Proof.Laws.EncodeLength.xor (a b : Sys2Proof.Byte) : Statement (.xor a b) := by
  simp [Statement, Sys2Proof.encode, Sys2Proof.Instr.operandBytes, Sys2Proof.Instr.opcode, Sys2Proof.operandCount]

theorem Sys2Proof.Laws.EncodeLength.shl (a b : Sys2Proof.Byte) : Statement (.shl a b) := by
  simp [Statement, Sys2Proof.encode, Sys2Proof.Instr.operandBytes, Sys2Proof.Instr.opcode, Sys2Proof.operandCount]

theorem Sys2Proof.Laws.EncodeLength.shr (a b : Sys2Proof.Byte) : Statement (.shr a b) := by
  simp [Statement, Sys2Proof.encode, Sys2Proof.Instr.operandBytes, Sys2Proof.Instr.opcode, Sys2Proof.operandCount]
end

