-- ==== Sys2Proof/Laws/Stack.lean ====
section
/-! SUPPORT. What PUSH, POP and CALL leave where their register operand is legal, once each, for callers to cite. -/

namespace Sys2Proof.Machine

theorem execPush_legal {a : Byte} {s : State} (ha : a.toNat < 8) :
    execPush a s =
      .next (((s.preDecSp.write s.pushAddr (s.preDecSp.reg ⟨a.toNat, ha⟩)).setReg ⟨a.toNat, ha⟩ 0#8).advance 1) := by
  simp [execPush, withReg_legal ha]

theorem execPop_legal {a : Byte} {s : State} (ha : a.toNat < 8) :
    execPop a s = .next ((s.setReg ⟨a.toNat, ha⟩ (s.read s.sp)).postIncSp.advance 1) := by
  simp [execPop, withReg_legal ha]

theorem execCall_legal {a : Byte} {s : State} (ha : a.toNat < 8) :
    execCall a s =
      .next ((s.preDecSp.write s.pushAddr (s.pc + 2#8)).setPc (s.preDecSp.reg ⟨a.toNat, ha⟩)) := by
  simp [execCall, withReg_legal ha]

/-- The register an operand byte selects after SP was decremented: the decremented SP for R7, else as before. -/
theorem State.preDecSp_operand {a : Byte} {s : State} (ha : a.toNat < 8) :
    s.preDecSp.reg ⟨a.toNat, ha⟩ = if a = 7#8 then s.pushAddr else s.reg ⟨a.toNat, ha⟩ := by
  have h : (⟨a.toNat, ha⟩ : Reg) = Config.spReg ↔ a = 7#8 := by
    rw [Fin.ext_iff, ← BitVec.toNat_inj]
    rfl
  simp [State.preDecSp_reg, h]

end Sys2Proof.Machine
end

