-- ==== Sys2Proof/Laws/Step.lean ====
section
/-! SUPPORT. What the fetch answers, and once, what a step can do. -/

namespace Sys2Proof

/-- The instruction a row of the opcode map makes of two operand bytes, of which it uses as many as its format has. -/
def Format.build : Format → Byte → Byte → Instr
  | .F0 i, _, _ => i
  | .F1 mk, a, _ => mk a
  | .F2 mk, a, b => mk a b

/-- A row builds instructions that have its opcode. -/
theorem opcodeMap_build_opcode : ∀ e ∈ opcodeMap, ∀ a b, (e.format.build a b).opcode = e.opcode := by
  simp only [opcodeMap, opcodeRowsShort, opcodeRowsLong, List.cons_append, List.nil_append, List.forall_mem_cons]
  refine ⟨?_, ?_, ?_, ?_, ?_, ?_, ?_, ?_, ?_, ?_, ?_, ?_, ?_, ?_, ?_, ?_, ?_, ?_, ?_, ?_, ?_, ?_, ?_, ?_, ?_, ?_, ?_, ?_, ?_⟩
  all_goals first | exact fun _ _ => rfl | simp

namespace Machine

/-- The cycle's fetch (40_execution_cycle.md R63): the opcode at pc looked up, and the operand bytes after it. -/
theorem State.fetchInstr_eq (s : State) :
    s.fetchInstr =
      match decodeOpcode (s.read s.pc) with
      | none => .error (.unknownOpcode (s.read s.pc))
      | some e => .ok (e.format.build (s.read (s.pc + 1#8)) (s.read (s.pc + 2#8))) := by
  cases h : decodeOpcode (s.read s.pc) with
  | none => simp [State.fetchInstr, State.fetchBytes, instrLength, h, State.bytesFrom, decode]
  | some e =>
    obtain ⟨hm, ho⟩ := decodeOpcode_some h
    have hc := opcodeMap_operandCount e hm
    rw [ho] at hc
    obtain ⟨o, f, ct⟩ := e
    cases f <;>
      simp_all [State.fetchInstr, State.fetchBytes, instrLength, State.bytesFrom, decode, Format.operands, Format.build,
        ← hc, BitVec.add_assoc]

/-- The fetched instruction's opcode is the byte at pc. -/
theorem State.fetchInstr_opcode {s : State} {i : Instr} (h : s.fetchInstr = .ok i) : i.opcode = s.read s.pc := by
  rw [State.fetchInstr_eq] at h
  cases hd : decodeOpcode (s.read s.pc) with
  | none => simp [hd] at h
  | some e =>
    obtain ⟨hm, ho⟩ := decodeOpcode_some hd
    simp only [hd, Except.ok.injEq] at h
    rw [← h, opcodeMap_build_opcode e hm, ho]

/-- What a step can do, where it answers a next state. -/
theorem step_cases {s t : State} (h : step s = .next t) :
    s.halted = false ∧
      ((∃ i, s.fetchInstr = .ok i ∧ exec i s = .next t) ∨
        (decodeOpcode (s.read s.pc) = none ∧ t = s.takeFault .decodeFault (s.read s.pc) none)) := by
  unfold step State.stopReason at h
  cases hh : s.halted with
  | true => simp [hh] at h
  | false =>
    refine ⟨rfl, ?_⟩
    simp only [hh, Bool.false_eq_true, if_false] at h
    cases hf : s.fetchInstr with
    | ok i => exact .inl ⟨i, rfl, by simpa [hf] using h⟩
    | error e =>
      rw [hf] at h
      refine .inr ⟨?_, (Host.Outcome.next.inj h).symm⟩
      rw [State.fetchInstr_eq] at hf
      cases hd : decodeOpcode (s.read s.pc) with
      | none => rfl
      | some e => simp [hd] at hf

/-- A running core that fetches an instruction executes it. -/
theorem step_of_fetch {s : State} {i : Instr} (hh : s.halted = false) (hf : s.fetchInstr = .ok i) :
    step s = exec i s := by
  simp [step, State.stopReason, hh, hf]

/-- A running core that fetches an illegal opcode takes the decode fault. -/
theorem step_of_illegal {s : State} (hh : s.halted = false) (hd : decodeOpcode (s.read s.pc) = none) :
    step s = .next (s.takeFault .decodeFault (s.read s.pc) none) := by
  simp [step, State.stopReason, hh, State.fetchInstr_eq, hd, State.takeDecodeFault]

end Machine

end Sys2Proof
end

