-- ==== Sys2Proof/Tests/Slice0.lean ====
section
/-! SUPPORT. The model's own tests, each about one step or one decode, with expected results from the spec (its opcode table and
95_test_vectors.md), and for each statement with hypotheses a witness that meets them. -/

namespace Sys2Proof.Tests

open Sys2Proof Sys2Proof.Machine

/-! ### Helpers -/

/-- A running state with R0, R1, R2, SP and pc as given, flags clear, and bytes stored at pc; the rest as after reset. -/
def at_ (r0 r1 r2 sp pc : Byte) (bytes : List Byte) : State :=
  { State.reset with
    regs := { State.reset.regs with r0 := r0, r1 := r1, r2 := r2, r7 := sp }
    pc := pc }.writeBytes pc bytes

/-- What one step leaves, seen through `g`. -/
def after {α : Type} (s : State) (g : State → α) : Option α := (nextState? (step s)).map g

/-- The flags `(E, G, L)`. -/
def egl (s : State) : Bool × Bool × Bool := (s.flags.E, s.flags.G, s.flags.L)

/-- The state with flags `(E, G, L)`. -/
def withFlags (s : State) (e g l : Bool) : State := { s with flags := { E := e, G := g, L := l } }

/-- A next state with a property, found by evaluation. -/
theorem exists_next {r : Result} (p : State → Bool)
    (h : (match nextState? r with | some t => p t | none => false) = true) : ∃ t, r = .next t ∧ p t = true := by
  cases r with
  | next t => exact ⟨t, rfl, h⟩
  | fault _ => simp [nextState?] at h
  | refused _ => simp [nextState?] at h

/-! ### Decoding: one word per instruction, its opcode bits from the table's encoding column -/

theorem test_decode_hlt : decode [0b00000001#8] = .ok (.hlt, []) := rfl
theorem test_decode_ret : decode [0b00010001#8] = .ok (.ret, []) := rfl
theorem test_decode_push : decode [0b01000101#8, 0b00000110#8] = .ok (.push 6#8, []) := rfl
theorem test_decode_pop : decode [0b01000110#8, 0b00000110#8] = .ok (.pop 6#8, []) := rfl
theorem test_decode_prn : decode [0b01000111#8, 0b00000110#8] = .ok (.prn 6#8, []) := rfl
theorem test_decode_call : decode [0b01010000#8, 0b00000110#8] = .ok (.call 6#8, []) := rfl
theorem test_decode_jmp : decode [0b01010100#8, 0b00000110#8] = .ok (.jmp 6#8, []) := rfl
theorem test_decode_jeq : decode [0b01010101#8, 0b00000110#8] = .ok (.jeq 6#8, []) := rfl
theorem test_decode_jne : decode [0b01010110#8, 0b00000110#8] = .ok (.jne 6#8, []) := rfl
theorem test_decode_jgt : decode [0b01010111#8, 0b00000110#8] = .ok (.jgt 6#8, []) := rfl
theorem test_decode_jlt : decode [0b01011000#8, 0b00000110#8] = .ok (.jlt 6#8, []) := rfl
theorem test_decode_jle : decode [0b01011001#8, 0b00000110#8] = .ok (.jle 6#8, []) := rfl
theorem test_decode_inc : decode [0b01100101#8, 0b00000110#8] = .ok (.inc 6#8, []) := rfl
theorem test_decode_dec : decode [0b01100110#8, 0b00000110#8] = .ok (.dec 6#8, []) := rfl
theorem test_decode_not : decode [0b01101001#8, 0b00000110#8] = .ok (.not 6#8, []) := rfl
theorem test_decode_ldi : decode [0b10000010#8, 0b00000110#8, 0b11111110#8] = .ok (.ldi 6#8 254#8, []) := rfl
theorem test_decode_st : decode [0b10000100#8, 0b00000110#8, 0b00000101#8] = .ok (.st 6#8 5#8, []) := rfl
theorem test_decode_add : decode [0b10100000#8, 0b00000110#8, 0b00000101#8] = .ok (.add 6#8 5#8, []) := rfl
theorem test_decode_sub : decode [0b10100001#8, 0b00000110#8, 0b00000101#8] = .ok (.sub 6#8 5#8, []) := rfl
theorem test_decode_mul : decode [0b10100010#8, 0b00000110#8, 0b00000101#8] = .ok (.mul 6#8 5#8, []) := rfl
theorem test_decode_div : decode [0b10100011#8, 0b00000110#8, 0b00000101#8] = .ok (.div 6#8 5#8, []) := rfl
theorem test_decode_mod : decode [0b10100100#8, 0b00000110#8, 0b00000101#8] = .ok (.mod 6#8 5#8, []) := rfl
theorem test_decode_cmp : decode [0b10100111#8, 0b00000110#8, 0b00000101#8] = .ok (.cmp 6#8 5#8, []) := rfl
theorem test_decode_and : decode [0b10101000#8, 0b00000110#8, 0b00000101#8] = .ok (.and 6#8 5#8, []) := rfl
theorem test_decode_or : decode [0b10101010#8, 0b00000110#8, 0b00000101#8] = .ok (.or 6#8 5#8, []) := rfl
theorem test_decode_xor : decode [0b10101011#8, 0b00000110#8, 0b00000101#8] = .ok (.xor 6#8 5#8, []) := rfl
theorem test_decode_shl : decode [0b10101100#8, 0b00000110#8, 0b00000101#8] = .ok (.shl 6#8 5#8, []) := rfl
theorem test_decode_shr : decode [0b10101101#8, 0b00000110#8, 0b00000101#8] = .ok (.shr 6#8 5#8, []) := rfl

/-- 0x00 and the other bytes of vectors C1 to C5 are no instructions. -/
theorem test_decode_illegal :
    (([0x00, 0x5A, 0xC0, 0xFF, 0x83, 0x48, 0x13, 0x52, 0xA5, 0xA9] : List Byte).all fun op =>
      (decodeOpcode op).isNone) = true := by decide

/-- Exactly 228 of the 256 bytes are illegal (R56). -/
theorem test_decode_counts :
    ((List.range 256).filter fun n => (decodeOpcode (BitVec.ofNat 8 n)).isNone).length = 228 := by decide +kernel

/-- A word that ends before its operands is rejected by name. -/
theorem test_decode_truncated : decode [0x82#8, 0x00#8] = .error .truncated := rfl

/-- The table's numbering: byte k is bits 8k+7..8k, and absent operand bytes are 0. -/
theorem test_table_word :
    decodeTableWord 24 0x050382 = some (.ldi 3#8 5#8) ∧ decodeTableWord 8 0x82 = some (.ldi 0#8 0#8) ∧
      decodeTableWord 8 0x00 = none := by decide

/-! ### WellFormed: each check refuses -/

theorem test_wf_refuses_operand_A :
    ([.push 8#8, .pop 8#8, .prn 255#8, .call 8#8, .jmp 8#8, .jeq 8#8, .jne 8#8, .jgt 8#8, .jlt 8#8, .jle 8#8, .inc 8#8,
      .dec 8#8, .not 8#8, .ldi 8#8 0#8, .st 8#8 0#8, .add 8#8 0#8, .sub 8#8 0#8, .mul 8#8 0#8, .div 8#8 0#8, .mod 8#8 0#8,
      .cmp 8#8 0#8, .and 8#8 0#8, .or 8#8 0#8, .xor 8#8 0#8, .shl 8#8 0#8, .shr 8#8 0#8] : List Instr).all
      (fun i => !i.wellFormed) = true := by decide

theorem test_wf_refuses_operand_B :
    ([.st 0#8 8#8, .add 7#8 8#8, .sub 0#8 8#8, .mul 0#8 8#8, .div 0#8 8#8, .mod 0#8 8#8, .cmp 0#8 8#8, .and 0#8 8#8,
      .or 0#8 8#8, .xor 0#8 8#8, .shl 0#8 8#8, .shr 0#8 255#8] : List Instr).all (fun i => !i.wellFormed) = true := by decide

theorem test_wf_accepts :
    ([.hlt, .ret, .push 7#8, .ldi 7#8 255#8, .add 7#8 0#8] : List Instr).all (·.wellFormed) = true := by decide

/-! ### One step, against 95_test_vectors.md -/

/-- C1, P8: reset with nothing loaded. -/
theorem test_step_reset :
    after State.reset (fun t => (t.halted, t.fault, t.pc)) =
      some (true, some ⟨.decodeFault, 0x00#8, 0x00#8, none⟩, 0x00#8) := by decide

/-- C6: operands wrap. -/
theorem test_step_wrap :
    after (at_ 0 0 0 0xF3#8 0xFE#8 [0x82#8, 0x01#8, 0x2A#8]) (fun t => (t.reg 1, t.pc)) = some (0x2A#8, 0x01#8) := by decide

/-- C9. -/
theorem test_hlt :
    after (at_ 0 0 0 0xF3#8 0xFF#8 [0x01#8]) (fun t => (t.halted, t.fault, t.pc)) = some (true, none, 0x00#8) := by decide

/-- C10: no step exists in a halted state. -/
theorem test_halted : (step { State.reset with halted := true }) = .fault .halted := rfl

/-- P-3. -/
theorem test_prn_sp : after (at_ 0 0 0 0xF3#8 0 [0x47#8, 0x07#8]) (·.out) = some [0xF3#8] := by decide

/-- P-4. -/
theorem test_prn_index :
    after (at_ 0 0 0 0xF3#8 9 [0x47#8, 0x08#8]) (fun t => (t.fault, t.out, t.pc)) =
      some (some ⟨.registerIndexFault, 0x47#8, 9, some (.A, 8)⟩, [], 9) := by decide

/-- S5: SP wraps. -/
theorem test_push_wrap :
    after (at_ 0x5A#8 0 0 0x00#8 0x10#8 [0x45#8, 0x00#8]) (fun t => (t.sp, t.read 0xFF#8, t.reg 0, t.pc)) =
      some (0xFF#8, 0x5A#8, 0x00#8, 0x12#8) := by decide

/-- S7. -/
theorem test_push_r7 :
    after (at_ 0 0 0 0xF3#8 0 [0x45#8, 0x07#8]) (fun t => (t.read 0xF2#8, t.sp)) = some (0xF2#8, 0x00#8) := by decide

/-- S6. -/
theorem test_pop_wrap :
    after ((at_ 0 0 0 0xFF#8 0 [0x46#8, 0x00#8]).write 0xFF#8 0x77#8) (fun t => (t.reg 0, t.sp)) =
      some (0x77#8, 0x00#8) := by decide

/-- S8. -/
theorem test_pop_r7 :
    after ((at_ 0 0 0 0xF3#8 0 [0x46#8, 0x07#8]).write 0xF3#8 0x10#8) (fun t => t.sp) = some 0x11#8 := by decide

/-- S10: the return address wraps. -/
theorem test_call_wrap :
    after (at_ 0 0x40#8 0 0xF3#8 0xFE#8 [0x50#8, 0x01#8]) (fun t => (t.read 0xF2#8, t.sp, t.pc)) =
      some (0x00#8, 0xF2#8, 0x40#8) := by decide

/-- S9. -/
theorem test_call_r7 :
    after (at_ 0 0 0 0xF3#8 0x20#8 [0x50#8, 0x07#8]) (fun t => (t.sp, t.read 0xF2#8, t.pc)) =
      some (0xF2#8, 0x22#8, 0xF2#8) := by decide

/-- S11. -/
theorem test_ret :
    after ((at_ 0 0 0 0xFF#8 0 [0x11#8]).write 0xFF#8 0x33#8) (fun t => (t.pc, t.sp)) = some (0x33#8, 0x00#8) := by decide

/-- J1 to J5: the jump at 0x10 with R2 = 0x40, under flags `(E, G, L)`. -/
def jumpPc (op : Byte) (e g l : Bool) : Option Byte :=
  after (withFlags (at_ 0 0 0x40#8 0xF3#8 0x10#8 [op, 0x02#8]) e g l) (·.pc)

theorem test_jmp : jumpPc 0x54#8 false false false = some 0x40#8 := by decide

theorem test_jeq : jumpPc 0x55#8 true false false = some 0x40#8 ∧ jumpPc 0x55#8 false true false = some 0x12#8 := by decide

theorem test_jne : jumpPc 0x56#8 true true true = some 0x12#8 ∧ jumpPc 0x56#8 false false false = some 0x40#8 := by decide

theorem test_jgt : jumpPc 0x57#8 false true false = some 0x40#8 ∧ jumpPc 0x57#8 true false false = some 0x12#8 := by decide

theorem test_jlt : jumpPc 0x58#8 false false true = some 0x40#8 ∧ jumpPc 0x58#8 false true false = some 0x12#8 := by decide

theorem test_jle :
    jumpPc 0x59#8 true false false = some 0x40#8 ∧ jumpPc 0x59#8 false false true = some 0x40#8 ∧
      jumpPc 0x59#8 false true false = some 0x12#8 := by decide

/-- J7: the register is checked though the jump would not be taken. -/
theorem test_jeq_index :
    after (at_ 0 0 0 0xF3#8 4 [0x55#8, 0x08#8]) (·.fault) =
      some (some ⟨.registerIndexFault, 0x55#8, 4, some (.A, 8)⟩) := by decide

/-- T2. -/
theorem test_ldi_r7 : after (at_ 0 0 0 0xF3#8 0 [0x82#8, 0x07#8, 0x40#8]) (fun t => (t.sp, t.pc)) = some (0x40#8, 3) := by decide

/-- T4. -/
theorem test_st :
    after (at_ 0 0x63#8 0 0xF3#8 0 [0x84#8, 0x00#8, 0x01#8]) (fun t => (t.reg 0, t.reg 1)) = some (0x63#8, 0x63#8) := by decide

/-- T7: operand A is checked first. -/
theorem test_st_index :
    after (at_ 0 0 0 0xF3#8 0 [0x84#8, 0x08#8, 0x09#8]) (·.fault) =
      some (some ⟨.registerIndexFault, 0x84#8, 0, some (.A, 8)⟩) := by decide

/-- The two-register vectors of Part 2: `op 00 01` with R0 = s and R1 = t. -/
def alu2 (op s t : Byte) : Option (Byte × Byte × Option FaultRecord) :=
  after (at_ s t 0 0xF3#8 0x20#8 [op, 0x00#8, 0x01#8]) (fun u => (u.reg 0, u.pc, u.fault))

/-- A1, A2. -/
theorem test_add : alu2 0xA0#8 200 100 = some (44, 0x23#8, none) ∧ alu2 0xA0#8 255 1 = some (0, 0x23#8, none) := by decide

/-- A3, A4. -/
theorem test_sub : alu2 0xA1#8 3 5 = some (254, 0x23#8, none) ∧ alu2 0xA1#8 0 1 = some (255, 0x23#8, none) := by decide

/-- A6, A7. -/
theorem test_mul : alu2 0xA2#8 16 16 = some (0, 0x23#8, none) ∧ alu2 0xA2#8 255 255 = some (1, 0x23#8, none) := by decide

/-- A8, A10. -/
theorem test_div :
    alu2 0xA3#8 7 2 = some (3, 0x23#8, none) ∧
      alu2 0xA3#8 9 0 = some (9, 0x20#8, some ⟨.arithmeticFault, 0xA3#8, 0x20#8, none⟩) := by decide

/-- A12, A13. -/
theorem test_mod :
    alu2 0xA4#8 5 7 = some (5, 0x23#8, none) ∧
      alu2 0xA4#8 9 0 = some (9, 0x20#8, some ⟨.arithmeticFault, 0xA4#8, 0x20#8, none⟩) := by decide

/-- A45, A46: an index fault comes before an arithmetic fault, on operand A and on B. -/
theorem test_div_index :
    after (at_ 0 0 0 0xF3#8 0 [0xA3#8, 0x09#8, 0x01#8]) (·.fault) =
        some (some ⟨.registerIndexFault, 0xA3#8, 0, some (.A, 9)⟩) ∧
      after (at_ 0 0 0 0xF3#8 0 [0xA3#8, 0x00#8, 0x09#8]) (·.fault) =
        some (some ⟨.registerIndexFault, 0xA3#8, 0, some (.B, 9)⟩) := by decide

/-- A18, A19: the comparison is unsigned. -/
theorem test_cmp :
    after (at_ 0 255 0 0xF3#8 0 [0xA7#8, 0x00#8, 0x01#8]) egl = some (false, false, true) ∧
      after (at_ 0x80#8 0x7F#8 0 0xF3#8 0 [0xA7#8, 0x00#8, 0x01#8]) egl = some (false, true, false) := by decide

/-- A47: a faulting CMP leaves the flags. -/
theorem test_cmp_index :
    after (withFlags (at_ 0 0 0 0xF3#8 0 [0xA7#8, 0x00#8, 0x08#8]) true false false) egl = some (true, false, false) := by decide

/-- A20. -/
theorem test_and : alu2 0xA8#8 0xF0#8 0x3C#8 = some (0x30#8, 0x23#8, none) := by decide

/-- A21. -/
theorem test_or : alu2 0xAA#8 0xF0#8 0x0F#8 = some (0xFF#8, 0x23#8, none) := by decide

/-- A22. -/
theorem test_xor : alu2 0xAB#8 0xFF#8 0x0F#8 = some (0xF0#8, 0x23#8, none) := by decide

/-- A23, A26. -/
theorem test_shl : alu2 0xAC#8 0x81#8 1 = some (0x02#8, 0x23#8, none) ∧ alu2 0xAC#8 0x81#8 8 = some (0, 0x23#8, none) := by decide

/-- A27, A29. -/
theorem test_shr : alu2 0xAD#8 0x81#8 1 = some (0x40#8, 0x23#8, none) ∧ alu2 0xAD#8 0x81#8 200 = some (0, 0x23#8, none) := by decide

/-- A37: source and destination the same register. -/
theorem test_shl_same : after (at_ 0 0 8 0xF3#8 0 [0xAC#8, 0x02#8, 0x02#8]) (·.reg 2) = some 0 := by decide

/-- A39, A44. -/
theorem test_inc :
    after (at_ 255 0 0 0xF3#8 0 [0x65#8, 0x00#8]) (fun t => (t.reg 0, t.pc)) = some (0, 2) ∧
      after (at_ 0 0 0 0xF3#8 0 [0x65#8, 0x07#8]) (·.sp) = some 0xF4#8 := by decide

/-- A41. -/
theorem test_dec : after (at_ 0 0 0 0xF3#8 0 [0x66#8, 0x00#8]) (fun t => (t.reg 0, t.pc)) = some (255, 2) := by decide

/-- A43. -/
theorem test_not : after (at_ 0xA5#8 0 0 0xF3#8 0 [0x69#8, 0x00#8]) (fun t => (t.reg 0, t.pc)) = some (0x5A#8, 2) := by decide

/-! ### Reset, launch and observation -/

/-- R122's given values, and that reset is the launch with the values of logs 1 to 3. -/
theorem test_reset :
    State.reset.sp = 0xF3#8 ∧ State.reset.pc = 0#8 ∧ State.reset.halted = false ∧
      State.reset = State.launch Config.initGpr { E := false, G := false, L := false } (fun _ => Config.unlistedByte) := by decide +kernel

/-- P1 launched: the first step of `LDI R0,8; PRN R0; HLT` loads R0. -/
theorem test_launch_program :
    after (State.launch Config.initGpr { E := false, G := false, L := false }
      (programImage [0x82#8, 0x00#8, 0x08#8, 0x47#8, 0x00#8, 0x01#8] fun _ => 0x00#8)) (fun t => (t.reg 0, t.pc)) =
      some (8#8, 3#8) := by decide +kernel

/-- Log 27: of a program of 257 bytes the 257th is not in the image, and address 0 keeps the first. -/
theorem test_program_image_cut :
    programImage (List.replicate 256 0x01#8 ++ [0x02#8]) (fun _ => 0x00#8) 0#8 = 0x01#8 ∧
      programImage (List.replicate 256 0x01#8 ++ [0x02#8]) (fun _ => 0x00#8) 255#8 = 0x01#8 := by decide +kernel

/-- D15: 0, 8, 15 and 255 in decimal with a newline. -/
theorem test_render :
    renderByte 0 = [0x30#8, 0x0A#8] ∧ renderByte 8 = [0x38#8, 0x0A#8] ∧ renderByte 15 = [0x31#8, 0x35#8, 0x0A#8] ∧
      renderByte 255 = [0x32#8, 0x35#8, 0x35#8, 0x0A#8] := by decide

/-- R106: status codes 0 after HLT and 1 after a decode fault. -/
theorem test_status :
    after (at_ 0 0 0 0xF3#8 0 [0x01#8]) (·.statusCode) = some (some 0) ∧
      after State.reset (·.statusCode) = some (some 1) := by decide

/-! ### Witnesses: a state and operands that meet the hypotheses of each statement that has some -/

theorem witness_OperandCountIsTopTwoOpcodeBits :
    decode [0x01#8] = .ok (.hlt, []) ∧ decode [0xAD#8, 0x07#8, 0x00#8, 0xFF#8] = .ok (.shr 7#8 0#8, [0xFF#8]) := ⟨rfl, rfl⟩

/-- Both clauses with hypotheses: illegal bytes at the ends of the range, and a legal opcode that faults. -/
theorem witness_OpcodesOutsideTheMapRaiseDecodeFault :
    State.reset.halted = false ∧ State.reset.read State.reset.pc = 0x00#8 ∧
      (at_ 0 0 0 0 0 [0xFF#8]).halted = false ∧ (at_ 0 0 0 0 0 [0xFF#8]).read 0 = 0xFF#8 ∧
      (at_ 9 0 0 0 0 [0xA3#8, 0#8, 1#8]).fault = none ∧ (at_ 9 0 0 0 0 [0xA3#8, 0#8, 1#8]).read 0 = 0xA3#8 ∧
      ∃ t, step (at_ 9 0 0 0 0 [0xA3#8, 0#8, 1#8]) = .next t ∧ t.fault.isSome = true :=
  ⟨by decide, by decide, by decide, by decide, by decide, by decide, exists_next _ (by decide)⟩

theorem witness_StepExecutesTheDecodedInstruction :
    let s := at_ 0 0 0 0xF3#8 0xFE#8 [0x82#8, 0x01#8, 0x2A#8]
    s.halted = false ∧ decode [s.read s.pc, s.read (s.pc + 1#8), s.read (s.pc + 2#8)] = .ok (.ldi 1#8 0x2A#8, []) := by
  exact ⟨rfl, rfl⟩

theorem witness_FirstStepFetchesAddressZero :
    ∃ i, (State.launch Config.initGpr { E := false, G := false, L := false } fun _ => 0x01#8).fetchInstr = .ok i :=
  ⟨.hlt, rfl⟩

theorem witness_StoredTableWordIsTheNextInstruction :
    State.reset.halted = false ∧ decodeTableWord 24 0x0701AD = some (.shr 1#8 7#8) := by decide

theorem witness_EveryStepKeepsTheCoreInvariant :
    State.reset.Inv ∧ ∃ t, step State.reset = .next t ∧ t.fault.isSome = true :=
  ⟨⟨rfl, by simp [State.reset], by simp [State.reset], by simp [State.reset]⟩, exists_next _ (by decide)⟩

/-- A step that goes on, one that halts by HLT, one that halts by a fault, and a halted state. -/
theorem witness_FaultIsNoneWhileRunningAndHaltedIsTerminal :
    (∃ t, step (at_ 0 0 0 0 0 [0x65#8, 0#8]) = .next t ∧ (!t.halted) = true) ∧
      (∃ t, step (at_ 0 0 0 0 0 [0x01#8]) = .next t ∧ t.halted = true) ∧ (at_ 0 0 0 0 0 [0x01#8]).fault = none ∧
      (∃ t, step State.reset = .next t ∧ t.halted = true) ∧ State.reset.fault = none ∧
      ({ State.reset with halted := true } : State).halted = true :=
  ⟨exists_next _ (by decide), exists_next _ (by decide), rfl, exists_next _ (by decide), rfl, rfl⟩

theorem witness_OnlyHltOrAFaultStopsARun :
    State.reset.halted = false ∧ (at_ 0x10#8 0 0 0 0x10#8 [0x54#8, 0#8]).reg ⟨(0#8 : Byte).toNat, by decide⟩ =
      (at_ 0x10#8 0 0 0 0x10#8 [0x54#8, 0#8]).pc := by decide

theorem witness_RegisterOperandAOfEightOrMoreFaults :
    (Instr.push 8#8).regA = some 8#8 ∧ 8 ≤ (8#8 : Byte).toNat ∧ (Instr.shr 255#8 0#8).regA = some 255#8 ∧
      8 ≤ (255#8 : Byte).toNat := by decide

theorem witness_RegisterOperandBOfEightOrMoreFaults :
    (Instr.div 7#8 8#8).regA = some 7#8 ∧ (7#8 : Byte).toNat < 8 ∧ (Instr.div 7#8 8#8).regB = some 8#8 ∧
      8 ≤ (8#8 : Byte).toNat := by decide

theorem witness_DivisionByZeroFaults :
    (0#8 : Byte).toNat < 8 ∧ (at_ 9 0 0 0 0 []).reg ⟨(7#8 : Byte).toNat, by decide⟩ = 0#8 := by decide

theorem witness_AStepFaultsExactlyOnTheThreeCauses : State.reset.halted = false ∧ State.reset.fault = none := by decide

theorem witness_AFaultingStepChangesOnlyHaltedAndFault :
    State.reset.fault = none ∧ ∃ t, step State.reset = .next t ∧
      decide (t.fault = some ⟨.decodeFault, 0x00#8, 0x00#8, none⟩) = true := ⟨rfl, exists_next _ (by decide)⟩

/-- A HLT, a step that goes on, and a step for each number 1, 2, 3. -/
theorem witness_StatusCodeAfterTheLastStep :
    (∃ t, step (at_ 0 0 0 0 0 [0x01#8]) = .next t ∧ decide (t.fault = none) = true) ∧
      (∃ t, step (at_ 0 0 0 0 0 [0x65#8, 0#8]) = .next t ∧ (!t.halted) = true) ∧
      (∃ t, step State.reset = .next t ∧ decide (t.statusCode = some 1) = true) ∧
      (∃ t, step (at_ 0 0 0 0 0 [0xA4#8, 0#8, 0#8]) = .next t ∧ decide (t.statusCode = some 2) = true) ∧
      (∃ t, step (at_ 0 0 0 0 0 [0x66#8, 8#8]) = .next t ∧ decide (t.statusCode = some 3) = true) :=
  ⟨exists_next _ (by decide), exists_next _ (by decide), exists_next _ (by decide), exists_next _ (by decide),
    exists_next _ (by decide)⟩

/-! Statements whose only hypotheses are legal operand bytes: both ends of their range. -/

theorem witness_AddAndMulResults : (7#8 : Byte).toNat < 8 ∧ (0#8 : Byte).toNat < 8 := by decide

theorem witness_SubResult : (7#8 : Byte).toNat < 8 ∧ (0#8 : Byte).toNat < 8 := by decide

theorem witness_BitwiseResults : (7#8 : Byte).toNat < 8 ∧ (0#8 : Byte).toNat < 8 := by decide

theorem witness_ShiftResults : (7#8 : Byte).toNat < 8 ∧ (0#8 : Byte).toNat < 8 := by decide

theorem witness_CmpRecomputesTheFlags : (7#8 : Byte).toNat < 8 ∧ (0#8 : Byte).toNat < 8 := by decide

theorem witness_StResult : (7#8 : Byte).toNat < 8 ∧ (0#8 : Byte).toNat < 8 := by decide

theorem witness_IncDecNotResults : (0#8 : Byte).toNat < 8 ∧ (7#8 : Byte).toNat < 8 := by decide

theorem witness_LdiResult : (0#8 : Byte).toNat < 8 ∧ (7#8 : Byte).toNat < 8 := by decide

theorem witness_PrnAppendsTheRegister : (0#8 : Byte).toNat < 8 ∧ (7#8 : Byte).toNat < 8 := by decide

theorem witness_PushDestroysItsSource : (0#8 : Byte).toNat < 8 ∧ (7#8 : Byte).toNat < 8 := by decide

theorem witness_JumpResults : (0#8 : Byte).toNat < 8 ∧ (7#8 : Byte).toNat < 8 := by decide

theorem witness_DivAndModResults :
    (0#8 : Byte).toNat < 8 ∧ (7#8 : Byte).toNat < 8 ∧
      ((at_ 9 0 0 0xF3#8 0 []).reg ⟨(7#8 : Byte).toNat, by decide⟩).toNat ≠ 0 := by decide

theorem witness_QuotientAndRemainderRecomposeTheDividend :
    ((at_ 9 4 0 0xF3#8 0 []).reg ⟨(1#8 : Byte).toNat, by decide⟩).toNat ≠ 0 ∧
      (∃ t, exec (.div 0#8 1#8) (at_ 9 4 0 0xF3#8 0 []) = .next t ∧ decide (t.reg 0 = 2#8) = true) ∧
      (∃ u, exec (.mod 0#8 1#8) (at_ 9 4 0 0xF3#8 0 []) = .next u ∧ decide (u.reg 0 = 1#8) = true) :=
  ⟨by decide, exists_next _ (by decide), exists_next _ (by decide)⟩

theorem witness_CmpIsIdempotent :
    (7#8 : Byte).toNat < 8 ∧ (0#8 : Byte).toNat < 8 ∧
      ∃ t, exec (.cmp 7#8 0#8) State.reset = .next t ∧ t.flags.G = true :=
  ⟨by decide, by decide, exists_next _ (by decide)⟩

theorem witness_LdiThenPrnEmitsTheImmediate :
    (7#8 : Byte).toNat < 8 ∧ ∃ t, exec (.ldi 7#8 255#8) State.reset = .next t ∧ decide (t.sp = 255#8) = true :=
  ⟨by decide, exists_next _ (by decide)⟩

theorem witness_HltLeavesPcAfterIt :
    ∃ t, exec .hlt (at_ 0 0 0 0 0xFF#8 []) = .next t ∧ decide (t.pc = 0#8) = true := exists_next _ (by decide)

/-! The legal operand bytes other than 7: both ends of their range. -/

theorem witness_PushResult :
    (0#8 : Byte).toNat < 8 ∧ (0#8 : Byte) ≠ 7#8 ∧ (6#8 : Byte).toNat < 8 ∧ (6#8 : Byte) ≠ 7#8 := by decide

theorem witness_PopResult :
    (0#8 : Byte).toNat < 8 ∧ (0#8 : Byte) ≠ 7#8 ∧ (6#8 : Byte).toNat < 8 ∧ (6#8 : Byte) ≠ 7#8 := by decide

theorem witness_CallResult :
    (0#8 : Byte).toNat < 8 ∧ (0#8 : Byte) ≠ 7#8 ∧ (6#8 : Byte).toNat < 8 ∧ (6#8 : Byte) ≠ 7#8 := by decide

theorem witness_PushThenPopRestoresTheRegisters :
    (0#8 : Byte).toNat < 8 ∧ (0#8 : Byte) ≠ 7#8 ∧
      ∃ t, exec (.push 0#8) (at_ 5 0 0 0 0 []) = .next t ∧ decide (t.sp = 0xFF#8) = true :=
  ⟨by decide, by decide, exists_next _ (by decide)⟩

theorem witness_CallThenRetResumesAfterTheCall :
    (6#8 : Byte).toNat < 8 ∧ (6#8 : Byte) ≠ 7#8 ∧
      ∃ t u : State, exec (.call 6#8) State.reset = .next t ∧ u.sp = t.sp ∧ u.read u.sp = t.read t.sp := by
  obtain ⟨t, h, _⟩ := exists_next (r := exec (.call 6#8) State.reset) (fun _ => true) (by decide)
  exact ⟨by decide, by decide, t, t, h, rfl, rfl⟩

/-- Each clause: not redirected, RET, CALL R7 and CALL R0, and a conditional jump whose condition holds. -/
theorem witness_PcIsRedirectedOrAdvanced :
    (∃ t, exec (.inc 0#8) State.reset = .next t ∧ (!t.halted) = true) ∧
      (decodeOpcode (Instr.inc 0#8).opcode).isSome = true ∧ (Instr.inc 0#8).redirects State.reset.flags = false ∧
      (∃ t, exec .ret State.reset = .next t ∧ (!t.halted) = true) ∧ (decodeOpcode Instr.ret.opcode).isSome = true ∧
      (∃ t, exec (.call (BitVec.ofNat 8 (7 : Reg).val)) State.reset = .next t ∧ (!t.halted) = true) ∧
      (∃ t, exec (.call (BitVec.ofNat 8 (0 : Reg).val)) State.reset = .next t ∧ (!t.halted) = true) ∧
      (∃ t, exec (.jeq 7#8) (withFlags State.reset true false false) = .next t ∧ (!t.halted) = true) ∧
      (Instr.jeq 7#8).redirects (withFlags State.reset true false false).flags = true ∧
      (Instr.jeq 7#8).regA = some (BitVec.ofNat 8 (7 : Reg).val) :=
  ⟨exists_next _ (by decide), by decide, by decide, exists_next _ (by decide), by decide, exists_next _ (by decide),
    exists_next _ (by decide), exists_next _ (by decide), by decide, by decide⟩

/-- A JLE under two flag registers that differ only in `G`, and a CMP. -/
theorem witness_FlagsAreWrittenByCmpAndReadByConditionalJumps :
    (∃ t, step (at_ 0 0 0 0 0 [0x59#8, 0#8]) = .next t ∧ (!t.halted) = true) ∧
      (at_ 0 0 0 0 0 [0x59#8, 0#8]).read 0 = 0x59#8 ∧
      Flags.agreeOnRead 0x59#8 { E := false, G := true, L := false } (at_ 0 0 0 0 0 [0x59#8, 0#8]).flags ∧
      (∃ t, step (at_ 0 0 0 0 0 [0xA7#8, 0#8, 7#8]) = .next t ∧ (!t.halted) = true) ∧
      Flags.agreeOnRead 0xA7#8 { E := true, G := true, L := true } (at_ 0 0 0 0 0 [0xA7#8, 0#8, 7#8]).flags :=
  ⟨exists_next _ (by decide), by decide, by unfold Flags.agreeOnRead; decide, exists_next _ (by decide),
    by unfold Flags.agreeOnRead; decide⟩

theorem witness_ExactlyOneFlagFromTheFirstCmpOn :
    (at_ 0 0 0 0 0 [0xA7#8, 0#8, 7#8]).read 0 = 0xA7#8 ∧
      (∃ t, step (at_ 0 0 0 0 0 [0xA7#8, 0#8, 7#8]) = .next t ∧ (!t.halted) = true) ∧
      (withFlags State.reset false true false).flags.exactlyOne = true ∧
      ∃ t, step (withFlags State.reset false true false) = .next t ∧ t.flags.exactlyOne = true :=
  ⟨by decide, exists_next _ (by decide), by decide, exists_next _ (by decide)⟩

/-- A step that writes nothing, one of PUSH, one of CALL, and a memory that agrees on the bytes a POP reads but differs elsewhere. -/
theorem witness_MemoryAccessesAreExactlyTheListedOnes :
    (∃ t, step (at_ 0 0 0 0 0 [0x65#8, 0#8]) = .next t ∧ (!t.halted) = true) ∧
      (at_ 0 0 0 0 0 [0x65#8, 0#8]).read 0 = 0x65#8 ∧
      (∃ t, step (at_ 5 0 0 0 0 [0x45#8, 0#8]) = .next t ∧ (!t.halted) = true) ∧
      (at_ 5 0 0 0 0 [0x45#8, 0#8]).read 0 = 0x45#8 ∧
      (∃ t, step (at_ 5 0 0 0 0 [0x50#8, 7#8]) = .next t ∧ (!t.halted) = true) ∧
      (at_ 5 0 0 0 0 [0x50#8, 7#8]).read 0 = 0x50#8 ∧
      (∃ t, step (at_ 0 0 0 0xF3#8 0 [0x46#8, 0#8]) = .next t ∧ (!t.halted) = true) ∧
      (at_ 0 0 0 0xF3#8 0 [0x46#8, 0#8]).readsAgree ((at_ 0 0 0 0xF3#8 0 [0x46#8, 0#8]).write 0x80#8 9#8).mem :=
  ⟨exists_next _ (by decide), by decide, exists_next _ (by decide), by decide, exists_next _ (by decide), by decide,
    exists_next _ (by decide), by unfold State.readsAgree; decide⟩

/-- An INC, a PRN that emits and a PRN that faults. -/
theorem witness_OutputIsExtendedOnlyByPrn :
    (∃ t, step (at_ 0 0 0 0 0 [0x65#8, 0#8]) = .next t ∧ (!t.halted) = true) ∧
      (at_ 0 0 0 0 0 [0x47#8, 7#8]).read 0 = 0x47#8 ∧
      (∃ t, step (at_ 0 0 0 0 0 [0x47#8, 7#8]) = .next t ∧ (!t.halted) = true) ∧
      (∃ t, step (at_ 0 0 0 0 0 [0x47#8, 8#8]) = .next t ∧ t.halted = true) :=
  ⟨exists_next _ (by decide), by decide, exists_next _ (by decide), exists_next _ (by decide)⟩

theorem witness_OnlyTheListedRegistersAreWritten :
    (∃ t, exec (.push 0#8) State.reset = .next t ∧ (!t.halted) = true) ∧ (Instr.push 0#8).writesReg 6 = false :=
  ⟨exists_next _ (by decide), by decide⟩

/-- A push onto the next opcode's address, of a HLT, of an illegal byte and of R7; and a call to the address it stores to,
through R0 and through R7. -/
theorem witness_ThePushedByteIsTheNextOpcodeFetched :
    let s := at_ 0x01#8 0x00#8 0 9 6 [0x45#8, 0#8]
    let c := at_ 0xF2#8 0 0 0xF3#8 0x0F#8 [0x50#8, 0#8]
    (0#8 : Byte).toNat < 8 ∧ (7#8 : Byte).toNat < 8 ∧ s.halted = false ∧ s.pushAddr = s.pc + 2#8 ∧
      (∃ t, exec (.push 0#8) s = .next t ∧ decide (t.read t.pc = 0x01#8) = true) ∧
      (∃ t, exec (.push 1#8) s = .next t ∧ decide (t.read t.pc = 0x00#8) = true) ∧
      (∃ t, exec (.push 7#8) s = .next t ∧ decide (t.read t.pc = 0x08#8) = true) ∧
      c.halted = false ∧ c.reg 0 = c.pushAddr ∧
      (∃ t, exec (.call 0#8) c = .next t ∧ decide (t.read t.pc = 0x11#8) = true) ∧
      ∃ t, exec (.call 7#8) c = .next t ∧ decide (t.read t.pc = 0x11#8) = true :=
  ⟨by decide, by decide, rfl, by decide, exists_next _ (by decide), exists_next _ (by decide), exists_next _ (by decide),
    rfl, by decide, exists_next _ (by decide), exists_next _ (by decide)⟩

theorem witness_CanonicalMemoriesThatReadAlikeAreEqual :
    Memory.wf [(0, 1#8), (255, 2#8)] = true ∧
      Memory.write (Memory.write [] 255#8 2#8) 0#8 1#8 = [(0, 1#8), (255, 2#8)] := by decide

end Sys2Proof.Tests
end

/-! PROOFS. The state's invariants and the frames of its components (10_state.md): what an instruction that answers a next
state can have done, said once as `Effect`, and the obligations of the family derived from it. -/

namespace Sys2Proof

/-- The six jumps of 42_jumps.md R78. -/
def Instr.isJump : Instr → Bool
  | .jmp _ | .jeq _ | .jne _ | .jgt _ | .jlt _ | .jle _ => true
  | _ => false

theorem Instr.opcode_of_dividesByZero {i : Instr} {s : Machine.State} (h : i.dividesByZero s) :
    i.opcode = 0xA3#8 ∨ i.opcode = 0xA4#8 := by
  cases i with
  | div => exact .inl rfl
  | mod => exact .inr rfl
  | _ => exact h.elim

namespace Machine

/-! ### What an instruction can do -/

/-- The state `t` that instruction `i` can leave `s` in, by kind of effect: the three faults of `exec` with their grounds, the
write of one register, and one constructor for each effect that is not shared. -/
inductive Effect (s : State) : Instr → State → Prop
  | operandA {i : Instr} {v : Byte} (hA : i.regA = some v) (hv : 8 ≤ v.toNat) :
      Effect s i (s.takeFault .registerIndexFault i.opcode (some (.A, v)))
  | operandB {i : Instr} {u v : Byte} (hA : i.regA = some u) (hu : u.toNat < 8) (hB : i.regB = some v)
      (hv : 8 ≤ v.toNat) : Effect s i (s.takeFault .registerIndexFault i.opcode (some (.B, v)))
  | zeroDivisor {i : Instr} (hz : i.dividesByZero s) : Effect s i (s.takeFault .arithmeticFault i.opcode none)
  | write {i : Instr} {r : Reg} (v : Byte) (n : Nat) (hw : i.writesReg r = true) :
      Effect s i ((s.setReg r v).advance n)
  | jump {i : Instr} (hj : i.isJump = true) (target : Byte) : Effect s i (s.setPc target)
  | compare {a b : Byte} (ha : a.toNat < 8) (hb : b.toNat < 8) :
      Effect s (.cmp a b)
        ((s.setFlags (compareFlags (s.reg ⟨a.toNat, ha⟩) (s.reg ⟨b.toNat, hb⟩))).advance 2)
  | emit {a : Byte} (ha : a.toNat < 8) : Effect s (.prn a) ((s.emit (s.reg ⟨a.toNat, ha⟩)).advance 1)
  | halt : Effect s .hlt (s.halt.advance 0)
  | push {a : Byte} (ha : a.toNat < 8) :
      Effect s (.push a)
        (((s.preDecSp.write s.pushAddr (s.preDecSp.reg ⟨a.toNat, ha⟩)).setReg ⟨a.toNat, ha⟩ 0#8).advance 1)
  | pop {a : Byte} (ha : a.toNat < 8) :
      Effect s (.pop a) ((s.setReg ⟨a.toNat, ha⟩ (s.read s.sp)).postIncSp.advance 1)
  | call {a : Byte} (ha : a.toNat < 8) :
      Effect s (.call a) ((s.preDecSp.write s.pushAddr (s.pc + 2#8)).setPc (s.preDecSp.reg ⟨a.toNat, ha⟩))
  | ret : Effect s .ret (s.setPc (s.read s.sp)).postIncSp

section Forms

variable {i : Instr} {a b : Byte} {s t : State}

/-- Behind the check of operand A, only the continuation's effect is left to show. -/
theorem withReg_effect {k : Reg → Result} (hA : i.regA = some a)
    (hk : ∀ ha : a.toNat < 8, k ⟨a.toNat, ha⟩ = .next t → Effect s i t) (h : withReg i.opcode .A a s k = .next t) :
    Effect s i t := by
  obtain ⟨ha, e⟩ | ⟨ha, e⟩ := withReg_cases i.opcode a .A s k
  · exact hk ha (e.symm.trans h)
  · cases e.symm.trans h
    exact .operandA hA ha

/-- Behind the check of both operands, only the continuation's effect is left to show. -/
theorem withRegs_effect {k : Reg → Reg → Result} (hA : i.regA = some a) (hB : i.regB = some b)
    (hk : ∀ (ha : a.toNat < 8) (hb : b.toNat < 8), k ⟨a.toNat, ha⟩ ⟨b.toNat, hb⟩ = .next t → Effect s i t)
    (h : withRegs i.opcode a b s k = .next t) : Effect s i t := by
  obtain ⟨ha, hb, e⟩ | ⟨ha, e⟩ | ⟨ha, hb, e⟩ := withRegs_cases i.opcode a b s k
  · exact hk ha hb (e.symm.trans h)
  · cases e.symm.trans h
    exact .operandA hA ha
  · cases e.symm.trans h
    exact .operandB hA ha hB hb

theorem aluBinary_effect {f : Byte → Byte → Byte} (hA : i.regA = some a) (hB : i.regB = some b)
    (hw : ∀ ha : a.toNat < 8, i.writesReg ⟨a.toNat, ha⟩ = true) (h : aluBinary i.opcode f a b s = .next t) :
    Effect s i t := by
  refine withRegs_effect hA hB (fun ha hb hk => ?_) h
  cases hk
  exact .write _ 2 (hw ha)

theorem aluDivide_effect {f : Byte → Byte → Byte} (hA : i.regA = some a) (hB : i.regB = some b)
    (hw : ∀ ha : a.toNat < 8, i.writesReg ⟨a.toNat, ha⟩ = true)
    (hz : ∀ hb : b.toNat < 8, s.reg ⟨b.toNat, hb⟩ = 0#8 → i.dividesByZero s)
    (h : aluDivide i.opcode f a b s = .next t) : Effect s i t := by
  refine withRegs_effect hA hB (fun ha hb hk => ?_) h
  split at hk
  · next h0 =>
    cases hk
    exact .zeroDivisor (hz hb h0)
  · cases hk
    exact .write _ 2 (hw ha)

theorem aluUnary_effect {g : Byte → Byte} (hA : i.regA = some a)
    (hw : ∀ ha : a.toNat < 8, i.writesReg ⟨a.toNat, ha⟩ = true) (h : aluUnary i.opcode g a s = .next t) :
    Effect s i t := by
  refine withReg_effect hA (fun ha hk => ?_) h
  cases hk
  exact .write _ 1 (hw ha)

theorem jumpIf_effect {cond : Flags → Bool} (hA : i.regA = some a) (hj : i.isJump = true)
    (h : jumpIf i.opcode cond a s = .next t) : Effect s i t := by
  refine withReg_effect hA (fun ha hk => ?_) h
  split at hk
  · cases hk
    exact .jump hj _
  · cases hk
    exact .jump hj (s.advance 1).pc

end Forms

/-- What an instruction can do, where it answers a next state. -/
theorem exec_effect {i : Instr} {s t : State} (h : exec i s = .next t) : Effect s i t := by
  cases i with
  | hlt => cases h; exact .halt
  | ret => cases h; exact .ret
  | push a => exact withReg_effect rfl (fun ha hk => by cases hk; exact .push ha) h
  | pop a => exact withReg_effect rfl (fun ha hk => by cases hk; exact .pop ha) h
  | prn a => exact withReg_effect rfl (fun ha hk => by cases hk; exact .emit ha) h
  | call a => exact withReg_effect rfl (fun ha hk => by cases hk; exact .call ha) h
  | cmp a b => exact withRegs_effect rfl rfl (fun ha hb hk => by cases hk; exact .compare ha hb) h
  | ldi a imm =>
    exact withReg_effect rfl (fun ha hk => by cases hk; exact .write imm 2 (beq_self_eq_true a.toNat)) h
  | st a b =>
    exact withRegs_effect rfl rfl (fun ha hb hk => by cases hk; exact .write _ 2 (beq_self_eq_true a.toNat)) h
  | jmp _ | jeq _ | jne _ | jgt _ | jlt _ | jle _ => exact jumpIf_effect rfl rfl h
  | inc a | dec a | not a => exact aluUnary_effect rfl (fun _ => beq_self_eq_true a.toNat) h
  | add a b | sub a b | mul a b | and a b | or a b | xor a b | shl a b | shr a b =>
    exact aluBinary_effect rfl rfl (fun _ => beq_self_eq_true a.toNat) h
  | div a b | mod a b =>
    exact aluDivide_effect rfl rfl (fun _ => beq_self_eq_true a.toNat) (fun hb h0 => ⟨hb, h0⟩) h

/-! ### What each effect leaves of the state's components -/

namespace Effect

variable {i : Instr} {s t : State}

theorem memWf (h : Effect s i t) (hm : Memory.wf s.mem = true) : Memory.wf t.mem = true := by
  cases h with
  | push | call => exact Memory.write_wf _ _ hm
  | _ => exact hm

/-- An instruction leaves the fault record alone, or takes a fault whose record has the form of its cause. -/
theorem fault_cases (h : Effect s i t) :
    t.fault = s.fault ∨
      ∃ code detail, t = s.takeFault code i.opcode detail ∧ FaultRecord.formOk ⟨code, i.opcode, s.pc, detail⟩ := by
  cases h with
  | operandA _ hv => exact .inr ⟨_, _, rfl, hv⟩
  | operandB _ _ _ hv => exact .inr ⟨_, _, rfl, hv⟩
  | zeroDivisor hz => exact .inr ⟨_, _, rfl, Instr.opcode_of_dividesByZero hz⟩
  | _ => exact .inl rfl

theorem flags_kept (h : Effect s i t) (hi : i.opcode ≠ 0xA7#8) : t.flags = s.flags := by
  cases h with
  | compare => exact absurd rfl hi
  | _ => rfl

theorem flags_of_cmp {a b : Byte} (h : Effect s (.cmp a b) t) :
    (t.halted = true ∧ t.flags = s.flags) ∨ ∃ x y, t.flags = compareFlags x y := by
  cases h with
  | operandA | operandB => exact .inl ⟨rfl, rfl⟩
  | compare => exact .inr ⟨_, _, rfl⟩
  | zeroDivisor hz => exact hz.elim
  | write _ _ hw => cases hw
  | jump hj => cases hj

theorem out_kept (h : Effect s i t) (hi : i.opcode ≠ 0x47#8) : t.out = s.out := by
  cases h with
  | emit => exact absurd rfl hi
  | _ => rfl

theorem out_of_prn {a : Byte} (h : Effect s (.prn a) t) :
    (t.halted = true ∧ t.out = s.out) ∨
      ∃ ha : a.toNat < 8, t.halted = s.halted ∧ t.out = s.out ++ [s.reg ⟨a.toNat, ha⟩] := by
  cases h with
  | operandA => exact .inl ⟨rfl, rfl⟩
  | emit ha => exact .inr ⟨ha, rfl, rfl⟩
  | operandB _ _ hB => cases hB
  | zeroDivisor hz => exact hz.elim
  | write _ _ hw => cases hw
  | jump hj => cases hj

/-- Of the registers, an instruction changes none but those 10_state.md R19 and R20 let it write. -/
theorem reg_kept {r : Reg} (h : Effect s i t) (hr : i.writesReg r = false) : t.reg r = s.reg r := by
  cases h with
  | @write _ d v n hw =>
    have hne : r ≠ d := fun e => by simp [← e, hr] at hw
    exact State.setReg_reg_ne s v hne
  | @push a ha =>
    obtain ⟨hra, hsp⟩ : a.toNat ≠ r.val ∧ r ≠ 7 := by simpa [Instr.writesReg] using hr
    simp [State.setReg_reg, State.preDecSp_reg, Config.spReg, Fin.ext_iff, hra.symm, hsp]
  | @pop a ha =>
    obtain ⟨hra, hsp⟩ : a.toNat ≠ r.val ∧ r ≠ 7 := by simpa [Instr.writesReg] using hr
    simp [State.setReg_reg, State.postIncSp_reg, Config.spReg, Fin.ext_iff, hra.symm, hsp]
  | call =>
    have hsp : r ≠ Config.spReg := by simpa [Instr.writesReg, Config.spReg] using hr
    exact State.preDecSp_reg_ne s hsp
  | ret =>
    have hsp : r ≠ Config.spReg := by simpa [Instr.writesReg, Config.spReg] using hr
    exact State.postIncSp_reg_ne _ hsp
  | _ => rfl

end Effect

/-! ### The invariant of the core -/

namespace State.Inv

variable {s : State}

theorem of_fault_none (hm : Memory.wf s.mem = true) (hf : s.fault = none) : s.Inv where
  memWf := hm
  faultHalts := by simp [hf]
  faultAddr := by simp [hf]
  faultForm := by simp [hf]

theorem fault_none (h : s.Inv) (hrun : s.halted = false) : s.fault = none := by
  simpa [hrun] using h.faultHalts

/-- Taking a fault whose record has the form of its cause keeps the invariant: it halts, and records pc (R111). -/
theorem takeFault {code : FaultCode} {opcode : Byte} {detail : Option (OperandPos × Byte)} (h : s.Inv)
    (hform : FaultRecord.formOk ⟨code, opcode, s.pc, detail⟩) : (s.takeFault code opcode detail).Inv where
  memWf := h.memWf
  faultHalts _ := rfl
  faultAddr r hr := by cases hr; rfl
  faultForm r hr := by cases hr; exact hform

end State.Inv

/-- Settles O9: memory is canonical at reset and for every launch image, and no fault is recorded yet. -/
theorem launchMeetsTheCoreInvariant : Obligations.LaunchMeetsTheCoreInvariant :=
  ⟨.of_fault_none State.reset_memWf rfl, fun _ _ mem => .of_fault_none (Memory.ofImage_wf mem) rfl⟩

/-- Settles O10: a running state that meets the invariant has no fault record, so a record in the next state is one that
this step took. -/
theorem everyStepKeepsTheCoreInvariant : Obligations.EveryStepKeepsTheCoreInvariant := by
  intro s t hinv hstep
  obtain ⟨hrun, ⟨i, -, hexec⟩ | ⟨-, rfl⟩⟩ := step_cases hstep
  · have heff := exec_effect hexec
    obtain hkept | ⟨code, detail, rfl, hform⟩ := heff.fault_cases
    · exact .of_fault_none (heff.memWf hinv.memWf) (hkept.trans (hinv.fault_none hrun))
    · exact hinv.takeFault hform
  · exact hinv.takeFault trivial

/-! ### Registers and output -/

/-- Settles O50: the register frame of every effect. -/
theorem onlyTheListedRegistersAreWritten : Obligations.OnlyTheListedRegistersAreWritten :=
  fun _ _ _ _ hexec hr => (exec_effect hexec).reg_kept hr

theorem State.fetchInstr_prn {s : State} (h : s.read s.pc = 0x47#8) :
    s.fetchInstr = .ok (.prn (s.read (s.pc + 1#8))) := by
  rw [State.fetchInstr_eq, h]; rfl

/-- Settles O49: no effect but PRN's touches the output channel, and the operand of a fetched PRN is the byte after pc. -/
theorem outputIsExtendedOnlyByPrn : Obligations.OutputIsExtendedOnlyByPrn := by
  intro s t hstep
  obtain ⟨hrun, hcase⟩ := step_cases hstep
  constructor
  · intro hop
    obtain ⟨i, hfetch, hexec⟩ | ⟨-, rfl⟩ := hcase
    · exact (exec_effect hexec).out_kept (State.fetchInstr_opcode hfetch ▸ hop)
    · rfl
  · intro hop
    rw [step_of_fetch hrun (State.fetchInstr_prn hop)] at hstep
    obtain ⟨hhalt, hout⟩ | ⟨ha, hhalt, hout⟩ := (exec_effect hstep).out_of_prn
    · exact ⟨fun _ => hout, fun hgo => by simp [hgo] at hhalt⟩
    · exact ⟨fun hstop => by simp [hstop, hrun] at hhalt, fun _ => ⟨ha, hout⟩⟩

/-! ### Flags -/

theorem State.fetchInstr_cmp {s : State} (h : s.read s.pc = 0xA7#8) :
    s.fetchInstr = .ok (.cmp (s.read (s.pc + 1#8)) (s.read (s.pc + 2#8))) := by
  rw [State.fetchInstr_eq, h]; rfl

theorem compareFlags_exactlyOne (x y : Byte) : (compareFlags x y).exactlyOne = true := by
  obtain h | h | h := lt_trichotomy x.toNat y.toNat
  · simp [compareFlags, Flags.exactlyOne, h, h.ne, h.not_gt]
  · simp [compareFlags, Flags.exactlyOne, h]
  · simp [compareFlags, Flags.exactlyOne, h, h.ne', h.not_gt]

theorem step_flags_kept {s t : State} (h : step s = .next t) (hop : s.read s.pc ≠ 0xA7#8) : t.flags = s.flags := by
  obtain ⟨-, ⟨i, hfetch, hexec⟩ | ⟨-, rfl⟩⟩ := step_cases h
  · exact (exec_effect hexec).flags_kept (State.fetchInstr_opcode hfetch ▸ hop)
  · rfl

/-- A step that fetches a CMP faults and leaves the flags, or leaves those of a comparison. -/
theorem step_flags_of_cmp {s t : State} (h : step s = .next t) (hop : s.read s.pc = 0xA7#8) :
    (t.halted = true ∧ t.flags = s.flags) ∨ ∃ x y, t.flags = compareFlags x y := by
  rw [step_of_fetch (step_cases h).1 (State.fetchInstr_cmp hop)] at h
  exact (exec_effect h).flags_of_cmp

/-- Settles O47: a comparison sets exactly one flag, and any other step keeps the flags. -/
theorem exactlyOneFlagFromTheFirstCmpOn : Obligations.ExactlyOneFlagFromTheFirstCmpOn := by
  refine ⟨fun s t hstep hop hgo => ?_, fun s t hstep hone => ?_, fun _ _ _ => rfl⟩
  · obtain ⟨hhalt, -⟩ | ⟨x, y, hxy⟩ := step_flags_of_cmp hstep hop
    · simp [hgo] at hhalt
    · exact hxy ▸ compareFlags_exactlyOne x y
  · by_cases hop : s.read s.pc = 0xA7#8
    · obtain ⟨-, hkept⟩ | ⟨x, y, hxy⟩ := step_flags_of_cmp hstep hop
      · exact hkept ▸ hone
      · exact hxy ▸ compareFlags_exactlyOne x y
    · exact step_flags_kept hstep hop ▸ hone

/-! ### Noninterference of the flags -/

/-- An answer with its next state, if it has one, changed by `g`. -/
def mapNext (g : State → State) : Result → Result
  | .next t => .next (g t)
  | .fault r => .fault r
  | .refused r => .refused r

section SetFlags

variable {opcode a b : Byte} {s : State} {f : Flags}

theorem withReg_setFlags {which : OperandPos} {k k' : Reg → Result}
    (hk : ∀ r, k' r = mapNext (·.setFlags f) (k r)) :
    withReg opcode which a (s.setFlags f) k' = mapNext (·.setFlags f) (withReg opcode which a s k) := by
  unfold withReg
  cases selectReg a with
  | none => rfl
  | some r => exact hk r

theorem withRegs_setFlags {k k' : Reg → Reg → Result}
    (hk : ∀ r q, k' r q = mapNext (·.setFlags f) (k r q)) :
    withRegs opcode a b (s.setFlags f) k' = mapNext (·.setFlags f) (withRegs opcode a b s k) :=
  withReg_setFlags fun r => withReg_setFlags (hk r)

theorem aluDivide_setFlags (g : Byte → Byte → Byte) :
    aluDivide opcode g a b (s.setFlags f) = mapNext (·.setFlags f) (aluDivide opcode g a b s) := by
  refine withRegs_setFlags fun r q => ?_
  rw [State.setFlags_reg, apply_ite (mapNext (·.setFlags f))]
  rfl

theorem jumpIf_setFlags {cond : Flags → Bool} (hc : cond f = cond s.flags) :
    jumpIf opcode cond a (s.setFlags f) = mapNext (·.setFlags f) (jumpIf opcode cond a s) := by
  refine withReg_setFlags fun r => ?_
  rw [State.setFlags_flags, hc, apply_ite (mapNext (·.setFlags f))]
  rfl

end SetFlags

/-- An instruction other than CMP does the same under any flags that agree on those it reads, and leaves them alone. -/
theorem exec_setFlags {i : Instr} {s : State} {f : Flags} (hi : i.opcode ≠ 0xA7#8)
    (hf : Flags.agreeOnRead i.opcode f s.flags) : exec i (s.setFlags f) = mapNext (·.setFlags f) (exec i s) := by
  obtain ⟨hE, hG, hL⟩ := hf
  cases i with
  | hlt | ret => rfl
  | push | pop | prn | call | inc | dec | not | ldi => exact withReg_setFlags fun _ => rfl
  | st | add | sub | mul | and | or | xor | shl | shr => exact withRegs_setFlags fun _ _ => rfl
  | div => exact aluDivide_setFlags aluDiv
  | mod => exact aluDivide_setFlags aluMod
  | cmp => exact absurd rfl hi
  | jmp => exact jumpIf_setFlags rfl
  | jeq => exact jumpIf_setFlags (hE (.inl rfl))
  | jne => exact jumpIf_setFlags (congrArg (!·) (hE (.inr (.inl rfl))))
  | jgt => exact jumpIf_setFlags (hG rfl)
  | jlt => exact jumpIf_setFlags (hL (.inl rfl))
  | jle => exact jumpIf_setFlags (congrArg₂ (· || ·) (hL (.inr rfl)) (hE (.inr (.inr rfl))))

/-- A CMP leaves the same state whatever the flags were before, unless it faults, and then it leaves them alone. -/
theorem execCmp_setFlags (a b : Byte) (s : State) (f : Flags) :
    execCmp a b (s.setFlags f) = execCmp a b s ∨
      ∃ t, execCmp a b s = .next t ∧ t.halted = true ∧ execCmp a b (s.setFlags f) = .next (t.setFlags f) := by
  unfold execCmp
  by_cases ha : a.toNat < 8
  · by_cases hb : b.toNat < 8
    · left
      simp only [withRegs, withReg_legal ha, withReg_legal hb]
      rfl
    · right
      simp only [withRegs, withReg_legal ha, withReg_illegal (Nat.le_of_not_lt hb)]
      exact ⟨_, rfl, rfl, rfl⟩
  · right
    simp only [withRegs, withReg_illegal (Nat.le_of_not_lt ha)]
    exact ⟨_, rfl, rfl, rfl⟩

theorem State.setFlags_fetchInstr (s : State) (f : Flags) : (s.setFlags f).fetchInstr = s.fetchInstr := by
  simp [State.fetchInstr_eq]

/-- A step under other flags that agree on those the fetched opcode reads: the same next state but for the flags, which
are the other ones still or, where a CMP completed, the same. -/
theorem step_setFlags {s t : State} {f : Flags} (h : step s = .next t)
    (hf : Flags.agreeOnRead (s.read s.pc) f s.flags) :
    step (s.setFlags f) = .next (t.setFlags f) ∧ (s.read s.pc = 0xA7#8 → t.halted = true) ∨
      step (s.setFlags f) = .next t ∧ s.read s.pc = 0xA7#8 := by
  obtain ⟨hrun, ⟨i, hfetch, hexec⟩ | ⟨hd, rfl⟩⟩ := step_cases h
  · have hop := State.fetchInstr_opcode hfetch
    rw [step_of_fetch (s := s.setFlags f) hrun ((s.setFlags_fetchInstr f).trans hfetch)]
    by_cases hcmp : s.read s.pc = 0xA7#8
    · cases Except.ok.inj (hfetch.symm.trans (State.fetchInstr_cmp hcmp))
      obtain hsame | ⟨u, hu, hhalt, hfault⟩ := execCmp_setFlags (s.read (s.pc + 1#8)) (s.read (s.pc + 2#8)) s f
      · exact .inr ⟨hsame.trans hexec, hcmp⟩
      · cases hu.symm.trans hexec
        exact .inl ⟨hfault, fun _ => hhalt⟩
    · rw [exec_setFlags (hop ▸ hcmp) (hop ▸ hf), hexec]
      exact .inl ⟨rfl, fun e => absurd e hcmp⟩
  · exact .inl ⟨step_of_illegal (s := s.setFlags f) hrun hd, fun _ => rfl⟩

/-- Settles O46: the flags' frame, and their noninterference. -/
theorem flagsAreWrittenByCmpAndReadByConditionalJumps :
    Obligations.FlagsAreWrittenByCmpAndReadByConditionalJumps := by
  refine ⟨fun s t => step_flags_kept, fun s t f hstep hf => ?_⟩
  obtain ⟨hu, hhalt⟩ | ⟨hu, hcmp⟩ := step_setFlags hstep hf
  · exact ⟨_, hu, rfl, fun _ => rfl, fun hcmp hgo => by simp [hhalt hcmp] at hgo⟩
  · exact ⟨t, hu, rfl, fun hne => absurd hcmp hne, fun _ _ => rfl⟩

end Machine

end Sys2Proof

/-! PROOFS. Memory (20_memory.md): the canonical form determines a memory by what it reads, and the accesses of a step to
memory are those of R36. -/

namespace Sys2Proof

namespace Machine

/-! ### The canonical form -/

theorem Memory.wfFrom_cons {lo : Nat} {c : Host.Cell} {m : Memory} :
    Memory.wfFrom lo (c :: m) = true ↔
      lo ≤ c.1 ∧ c.1 < Config.memSize ∧ c.2 ≠ Config.unlistedByte ∧ Memory.wfFrom (c.1 + 1) m = true := by
  simp [Memory.wfFrom, and_assoc]

/-- Of the cells at addresses `lo` and up, none is below `lo`. -/
theorem Memory.le_of_lookup_ne {lo k : Nat} {m : Memory} (hm : Memory.wfFrom lo m = true)
    (hk : Memory.lookup k m ≠ Config.unlistedByte) : lo ≤ k := by
  induction m generalizing lo with
  | nil => exact absurd rfl hk
  | cons c m ih =>
    obtain ⟨hlo, -, -, htail⟩ := Memory.wfFrom_cons.mp hm
    by_cases hc : c.1 = k
    · exact hc ▸ hlo
    · have : c.1 + 1 ≤ k := ih htail (by simpa [Memory.lookup, hc] using hk)
      omega

/-- The tail of a canonical memory reads as the whole does above its first cell, and as unlisted up to there. -/
theorem Memory.lookup_tail {c : Host.Cell} {m : Memory} (hm : Memory.wfFrom (c.1 + 1) m = true) (k : Nat) :
    Memory.lookup k m = if k ≤ c.1 then Config.unlistedByte else Memory.lookup k (c :: m) := by
  split
  · next hk => exact not_ne_iff.mp fun h => by have := Memory.le_of_lookup_ne hm h; omega
  · next hk => simp [Memory.lookup, show c.1 ≠ k by omega]

/-- The canonical form is unique: the first cells are at one address, since each memory lists the other's first address. -/
theorem Memory.eq_of_lookup_eq {lo hi : Nat} {m n : Memory} (hm : Memory.wfFrom lo m = true)
    (hn : Memory.wfFrom hi n = true) (h : ∀ k < Config.memSize, Memory.lookup k m = Memory.lookup k n) : m = n := by
  induction m generalizing lo hi n with
  | nil =>
    cases n with
    | nil => rfl
    | cons d n =>
      obtain ⟨-, hd, hdv, -⟩ := Memory.wfFrom_cons.mp hn
      exact absurd (by simpa [Memory.lookup] using (h d.1 hd).symm) hdv
  | cons c m ih =>
    obtain ⟨-, hc, hcv, hmt⟩ := Memory.wfFrom_cons.mp hm
    cases n with
    | nil => exact absurd (by simpa [Memory.lookup] using h c.1 hc) hcv
    | cons d n =>
      obtain ⟨-, hd, hdv, hnt⟩ := Memory.wfFrom_cons.mp hn
      have hatc : Memory.lookup c.1 (d :: n) = c.2 := by simpa [Memory.lookup] using (h c.1 hc).symm
      have hatd : Memory.lookup d.1 (c :: m) = d.2 := by simpa [Memory.lookup] using h d.1 hd
      have hdc : d.1 ≤ c.1 := Memory.le_of_lookup_ne (Memory.wfFrom_cons.mpr ⟨le_rfl, hd, hdv, hnt⟩) (hatc ▸ hcv)
      have hcd : c.1 ≤ d.1 := Memory.le_of_lookup_ne (Memory.wfFrom_cons.mpr ⟨le_rfl, hc, hcv, hmt⟩) (hatd ▸ hdv)
      have haddr : c.1 = d.1 := le_antisymm hcd hdc
      have hbyte : c.2 = d.2 := by simpa [Memory.lookup, haddr] using hatd
      have htails : m = n := ih hmt hnt fun k hk => by
        rw [Memory.lookup_tail hmt, Memory.lookup_tail hnt, h k hk, haddr]
      rw [Prod.ext haddr hbyte, htails]

/-- Settles O52: reads are lookups at the addresses below 256, and a canonical memory lists no others. -/
theorem canonicalMemoriesThatReadAlikeAreEqual : Obligations.CanonicalMemoriesThatReadAlikeAreEqual := by
  intro m n hm hn hread
  refine Memory.eq_of_lookup_eq hm hn fun k hk => ?_
  have hto : (BitVec.ofNat 8 k).toNat = k := Nat.mod_eq_of_lt hk
  simpa [Memory.read, hto] using hread (BitVec.ofNat 8 k)

/-! ### Writes -/

namespace Effect

variable {i : Instr} {s t : State}

theorem memKept (h : Effect s i t) (hpush : i.opcode ≠ 0x45#8) (hcall : i.opcode ≠ 0x50#8) : MemKept s t := by
  cases h with
  | push => exact absurd rfl hpush
  | call => exact absurd rfl hcall
  | _ => exact fun _ => rfl

theorem memKeptExcept (h : Effect s i t) : MemKeptExcept s.pushAddr s t := by
  cases h with
  | push | call => exact fun _ hx => State.write_read_ne s.preDecSp _ hx
  | _ => exact fun _ _ => rfl

end Effect

theorem step_memKept {s t : State} (h : step s = .next t) (hpush : s.read s.pc ≠ 0x45#8)
    (hcall : s.read s.pc ≠ 0x50#8) : MemKept s t := by
  obtain ⟨-, ⟨i, hfetch, hexec⟩ | ⟨-, rfl⟩⟩ := step_cases h
  · have hop := State.fetchInstr_opcode hfetch
    exact (exec_effect hexec).memKept (hop ▸ hpush) (hop ▸ hcall)
  · exact fun _ => rfl

theorem step_memKeptExcept {s t : State} (h : step s = .next t) : MemKeptExcept s.pushAddr s t := by
  obtain ⟨-, ⟨i, -, hexec⟩ | ⟨-, rfl⟩⟩ := step_cases h
  · exact (exec_effect hexec).memKeptExcept
  · exact fun _ _ => rfl

/-! ### Noninterference of the bytes that are not read -/

/-- The state with another memory. -/
def State.withMem (s : State) (m : Memory) : State := { s with mem := m }

@[simp] theorem State.withMem_read (s : State) (m : Memory) (x : Byte) : (s.withMem m).read x = Memory.read m x := rfl
@[simp] theorem State.withMem_reg (s : State) (m : Memory) (r : Reg) : (s.withMem m).reg r = s.reg r := rfl
@[simp] theorem State.withMem_sp (s : State) (m : Memory) : (s.withMem m).sp = s.sp := rfl
@[simp] theorem State.withMem_pc (s : State) (m : Memory) : (s.withMem m).pc = s.pc := rfl
@[simp] theorem State.withMem_flags (s : State) (m : Memory) : (s.withMem m).flags = s.flags := rfl

section WithMem

variable {opcode a b : Byte} {s t : State} {m : Memory}

theorem withReg_withMem {which : OperandPos} {k k' : Reg → Result} (hk : ∀ r, k' r = mapNext (·.withMem m) (k r)) :
    withReg opcode which a (s.withMem m) k' = mapNext (·.withMem m) (withReg opcode which a s k) := by
  unfold withReg
  cases selectReg a with
  | none => rfl
  | some r => exact hk r

theorem withRegs_withMem {k k' : Reg → Reg → Result} (hk : ∀ r q, k' r q = mapNext (·.withMem m) (k r q)) :
    withRegs opcode a b (s.withMem m) k' = mapNext (·.withMem m) (withRegs opcode a b s k) :=
  withReg_withMem fun r => withReg_withMem (hk r)

theorem aluDivide_withMem (g : Byte → Byte → Byte) :
    aluDivide opcode g a b (s.withMem m) = mapNext (·.withMem m) (aluDivide opcode g a b s) := by
  refine withRegs_withMem fun r q => ?_
  rw [State.withMem_reg, apply_ite (mapNext (·.withMem m))]
  rfl

theorem jumpIf_withMem {cond : Flags → Bool} :
    jumpIf opcode cond a (s.withMem m) = mapNext (·.withMem m) (jumpIf opcode cond a s) := by
  refine withReg_withMem fun r => ?_
  rw [State.withMem_flags, apply_ite (mapNext (·.withMem m))]
  rfl

/-- An instruction other than PUSH and CALL does the same in any memory that has the byte it pops, and leaves it alone. -/
theorem exec_withMem {i : Instr} (hpush : i.opcode ≠ 0x45#8) (hcall : i.opcode ≠ 0x50#8)
    (hpop : i.opcode = 0x46#8 ∨ i.opcode = 0x11#8 → Memory.read m s.sp = s.read s.sp) :
    exec i (s.withMem m) = mapNext (·.withMem m) (exec i s) := by
  cases i with
  | push => exact absurd rfl hpush
  | call => exact absurd rfl hcall
  | pop =>
    refine withReg_withMem fun r => ?_
    rw [State.withMem_read, State.withMem_sp, hpop (.inl rfl)]
    rfl
  | ret =>
    simp only [exec, execRet, State.withMem_read, State.withMem_sp, hpop (.inr rfl)]
    rfl
  | hlt => rfl
  | prn | inc | dec | not | ldi => exact withReg_withMem fun _ => rfl
  | st | add | sub | mul | cmp | and | or | xor | shl | shr => exact withRegs_withMem fun _ _ => rfl
  | div => exact aluDivide_withMem aluDiv
  | mod => exact aluDivide_withMem aluMod
  | jmp | jeq | jne | jgt | jlt | jle => exact jumpIf_withMem

/-- Behind the check of its operand, a store that stores the same byte in both memories; in a fault there is none. -/
theorem withReg_store {which : OperandPos} {k k' : Reg → Result} {d : Byte}
    (hk : ∀ r, k r = .next t → k' r = .next ((t.withMem m).write d (t.read d)))
    (h : withReg opcode which a s k = .next t) :
    withReg opcode which a (s.withMem m) k' = .next (t.withMem m) ∧ t.halted = true ∨
      withReg opcode which a (s.withMem m) k' = .next ((t.withMem m).write d (t.read d)) := by
  obtain ⟨ha, e⟩ | ⟨ha, e⟩ := withReg_cases opcode a which s k
  · exact .inr ((withReg_legal ha).trans (hk _ (e.symm.trans h)))
  · cases e.symm.trans h
    exact .inl ⟨withReg_illegal ha, rfl⟩

/-- A PUSH or CALL in another memory faults and leaves that memory alone, or stores the same byte there. -/
theorem exec_store_withMem {i : Instr} (hi : i.opcode = 0x45#8 ∨ i.opcode = 0x50#8) (h : exec i s = .next t) :
    exec i (s.withMem m) = .next (t.withMem m) ∧ t.halted = true ∨
      exec i (s.withMem m) = .next ((t.withMem m).write s.pushAddr (t.read s.pushAddr)) := by
  cases i with
  | push a =>
    refine withReg_store (fun r hk => ?_) h
    cases hk
    rw [State.advance_read, State.setReg_read, State.preDecSp_sp, State.write_read_same]
    rfl
  | call a =>
    refine withReg_store (fun r hk => ?_) h
    cases hk
    rw [State.setPc_read, State.preDecSp_sp, State.write_read_same]
    rfl
  | _ => simp [Instr.opcode] at hi

end WithMem

end Machine

/-- A format builds the same instruction from operand bytes that agree as far as it has any. -/
theorem Format.build_congr {f : Format} {a a' b b' : Byte} (ha : 1 ≤ f.operands → a = a')
    (hb : 2 ≤ f.operands → b = b') : f.build a b = f.build a' b' := by
  cases f with
  | F0 => rfl
  | F1 mk => exact congrArg mk (ha le_rfl)
  | F2 mk => exact congrArg₂ mk (ha one_le_two) (hb le_rfl)

namespace Machine

/-- The fetch reads no byte but those R36 lists for it. -/
theorem State.readsAgree.fetchInstr_eq {s : State} {m : Memory} (h : s.readsAgree m) :
    (s.withMem m).fetchInstr = s.fetchInstr := by
  obtain ⟨hop, ha, hb, -⟩ := h
  rw [State.fetchInstr_eq, State.fetchInstr_eq, State.withMem_read, State.withMem_pc, hop]
  cases hd : decodeOpcode (s.read s.pc) with
  | none => rfl
  | some e =>
    obtain ⟨hmem, hopc⟩ := decodeOpcode_some hd
    have hcount : e.format.operands = operandCount (s.read s.pc) := hopc ▸ opcodeMap_operandCount e hmem
    have hsome : (decodeOpcode (s.read s.pc)).isSome := by simp [hd]
    exact congrArg Except.ok (Format.build_congr (fun h1 => ha hsome (hcount ▸ h1)) fun h2 => hb hsome (hcount ▸ h2))

/-- A step in another memory that agrees on the bytes R36 lists: it leaves that memory alone, which PUSH and CALL do only
in a fault, or stores there the byte it stores here. -/
theorem step_withMem {s t : State} {m : Memory} (h : step s = .next t) (hm : s.readsAgree m) :
    step (s.withMem m) = .next (t.withMem m) ∧ (s.read s.pc = 0x45#8 ∨ s.read s.pc = 0x50#8 → t.halted = true) ∨
      step (s.withMem m) = .next ((t.withMem m).write s.pushAddr (t.read s.pushAddr)) := by
  have hfetch' := hm.fetchInstr_eq
  obtain ⟨hop, -, -, hsp⟩ := hm
  obtain ⟨hrun, ⟨i, hfetch, hexec⟩ | ⟨hd, rfl⟩⟩ := step_cases h
  · have hi := State.fetchInstr_opcode hfetch
    rw [step_of_fetch (s := s.withMem m) hrun (hfetch'.trans hfetch)]
    by_cases hstore : i.opcode = 0x45#8 ∨ i.opcode = 0x50#8
    · exact (exec_store_withMem hstore hexec).imp_left fun ⟨hu, hhalt⟩ => ⟨hu, fun _ => hhalt⟩
    · obtain ⟨hpush, hcall⟩ := not_or.mp hstore
      rw [exec_withMem hpush hcall (hi ▸ hsp), hexec]
      exact .inl ⟨rfl, fun e => absurd (hi ▸ e) hstore⟩
  · have hop' : (s.withMem m).read (s.withMem m).pc = s.read s.pc := hop
    rw [step_of_illegal (s := s.withMem m) hrun (hop'.symm ▸ hd), hop']
    exact .inl ⟨rfl, fun _ => rfl⟩

/-- Settles O48: the frame of memory, the noninterference of the bytes not read, and the launch image. -/
theorem memoryAccessesAreExactlyTheListedOnes : Obligations.MemoryAccessesAreExactlyTheListedOnes := by
  refine ⟨fun s t => step_memKept, fun s t hstep _ => step_memKeptExcept hstep, fun s t m hstep hm => ?_,
    fun _ _ mem a => Memory.read_ofImage mem a⟩
  obtain ⟨hu, hhalt⟩ | hu := step_withMem hstep hm
  · exact ⟨_, hu, rfl, fun _ _ => rfl, fun hop hgo => by simp [hhalt hop] at hgo⟩
  · exact ⟨_, hu, rfl, fun x hx => State.write_read_ne (t.withMem m) _ hx,
      fun _ _ => State.write_read_same (t.withMem m) _ _⟩

end Machine

end Sys2Proof

/-! PROOFS. The encoding (30_encoding.md): decoding inverts encoding, an opcode's top two bits count its operand bytes, and
exactly the opcodes outside the map raise a decode fault. -/

namespace Sys2Proof

/-! ### The rows of the opcode map -/

/-- A row builds instructions whose operand bytes are those it used, operand A first (30_encoding.md R48). -/
theorem opcodeMap_build_operandBytes :
    ∀ e ∈ opcodeMap, ∀ a b, (e.format.build a b).operandBytes = [a, b].take e.format.operands := by
  simp [opcodeMap, opcodeRowsShort, opcodeRowsLong, Format.build, Instr.operandBytes, Format.operands]

theorem Format.operands_ne_three (f : Format) : f.operands ≠ 3 := by
  cases f <;> simp [Format.operands]

/-- No row's opcode has 3 in the bits 7 and 6 (R57). -/
theorem opcodeMap_operandCount_ne_three {e : Entry} (he : e ∈ opcodeMap) : operandCount e.opcode ≠ 3 :=
  opcodeMap_operandCount e he ▸ e.format.operands_ne_three

/-- The lookup fails exactly on the bytes that no row has as its opcode (R56). -/
theorem decodeOpcode_eq_none_iff {op : Byte} : decodeOpcode op = none ↔ op ∉ opcodeMap.map Entry.opcode := by
  simp [decodeOpcode]

/-! ### Decoding and encoding -/

/-- What decodes is the opcode of a row, as many operand bytes as the row's format has, and the rest. -/
theorem decode_cons_ok {op : Byte} {bs rest : List Byte} {i : Instr} (h : decode (op :: bs) = .ok (i, rest)) :
    ∃ e a b, decodeOpcode op = some e ∧ e.format.build a b = i ∧ bs = [a, b].take e.format.operands ++ rest := by
  unfold decode at h
  cases hd : decodeOpcode op with
  | none => simp [hd] at h
  | some e =>
    obtain ⟨o, f, ct⟩ := e
    simp only [hd] at h
    match f, bs, h with
    | .F0 _, _, h => cases h; exact ⟨_, 0#8, 0#8, rfl, rfl, rfl⟩
    | .F1 _, a :: _, h => cases h; exact ⟨_, a, 0#8, rfl, rfl, rfl⟩
    | .F2 _, a :: b :: _, h => cases h; exact ⟨_, a, b, rfl, rfl, rfl⟩

theorem decode_encode (i : Instr) (rest : List Byte) : decode (encode i ++ rest) = .ok (i, rest) := by
  cases i <;> rfl

/-- The decoder accepts no bytes but an instruction's encoding: the row it finds has that instruction's opcode and operand
bytes. -/
theorem eq_encode_append_of_decode {bs rest : List Byte} {i : Instr} (h : decode bs = .ok (i, rest)) :
    bs = encode i ++ rest := by
  cases bs with
  | nil => cases h
  | cons op bs =>
    obtain ⟨e, a, b, hd, rfl, rfl⟩ := decode_cons_ok h
    obtain ⟨he, hop⟩ := decodeOpcode_some hd
    rw [encode, opcodeMap_build_opcode e he, opcodeMap_build_operandBytes e he, hop, List.cons_append]

/-- Settles O1: the two directions of the round trip. -/
theorem decodeExactlyInvertsEncode : Obligations.DecodeExactlyInvertsEncode :=
  fun _ i rest => ⟨eq_encode_append_of_decode, fun h => h ▸ decode_encode i rest⟩

/-- Settles O2: the bytes taken after the opcode are as many as the format of its row has, which is the opcode's count. -/
theorem operandCountIsTopTwoOpcodeBits : Obligations.OperandCountIsTopTwoOpcodeBits := by
  intro op bs i rest h
  obtain ⟨e, a, b, hd, -, rfl⟩ := decode_cons_ok h
  obtain ⟨he, rfl⟩ := decodeOpcode_some hd
  have hcount : e.format.operands = e.opcode.toNat / 64 := opcodeMap_operandCount e he
  have htake : ([a, b].take e.format.operands).length = e.format.operands := by cases e.format <;> rfl
  exact ⟨by rw [List.length_append, htake, hcount], opcodeMap_operandCount_ne_three he⟩

/-- Settles O3: each word is the encoding of its instruction. -/
theorem sampleWordsDecode : Obligations.SampleWordsDecode :=
  ⟨decode_encode .hlt [], decode_encode .ret [], decode_encode (.push 7#8) [], decode_encode (.prn 3#8) [],
    decode_encode (.jle 2#8) [], decode_encode (.not 5#8) [], decode_encode (.ldi 1#8 255#8) [],
    decode_encode (.st 4#8 6#8) [], decode_encode (.sub 0#8 1#8) [], decode_encode (.shr 1#8 0#8) []⟩

/-! ### Illegal opcodes -/

namespace Machine

/-- A fault taken by an instruction that decoded is an index or an arithmetic fault. -/
theorem Effect.fault_code {i : Instr} {s t : State} {r : FaultRecord} (h : Effect s i t) (hs : s.fault = none)
    (ht : t.fault = some r) : r.code ≠ .decodeFault := by
  cases h with
  | operandA | operandB | zeroDivisor => cases ht; exact nofun
  | _ => exact absurd (hs.symm.trans ht) nofun

/-- Settles O4: the list is the map's column of opcodes, and the lookup fails exactly outside it. -/
theorem opcodesOutsideTheMapRaiseDecodeFault : Obligations.OpcodesOutsideTheMapRaiseDecodeFault := by
  unfold Obligations.OpcodesOutsideTheMapRaiseDecodeFault
  intro legal
  have hlegal : legal = opcodeMap.map Entry.opcode := rfl
  rw [hlegal]
  refine ⟨fun s hrun hop => ?_, fun s t r hnone hstep hr hop => ?_, fun op hop => ?_⟩
  · exact ⟨_, _, step_of_illegal hrun (decodeOpcode_eq_none_iff.mpr hop), rfl, rfl, rfl, rfl, rfl⟩
  · obtain ⟨-, ⟨i, -, hexec⟩ | ⟨hd, -⟩⟩ := step_cases hstep
    · exact (exec_effect hexec).fault_code hnone hr
    · exact absurd hop (decodeOpcode_eq_none_iff.mp hd)
  · obtain ⟨e, he, rfl⟩ := List.mem_map.mp hop
    exact opcodeMap_operandCount_ne_three he

end Machine

end Sys2Proof

/-! PROOFS. The cycle (40_execution_cycle.md): a step runs the decoded instruction, a running core always steps, what halts it,
and where pc stands after a step that goes on. -/

namespace Sys2Proof

/-! ### Decoding at pc -/

/-- A format builds the same instruction from two operand bytes as from those it took off their front. -/
theorem Format.build_eq_of_take {f : Format} {a b x y : Byte} {rest : List Byte}
    (h : [x, y] = [a, b].take f.operands ++ rest) : f.build x y = f.build a b := by
  cases f with
  | F0 => rfl
  | F1 => cases h; rfl
  | F2 => cases h; rfl

/-- An instruction has its opcode byte and `opcode[7:6]` operand bytes (30_encoding.md R49, R59). -/
theorem length_encode (i : Instr) : (encode i).length = 1 + operandCount i.opcode := by
  have hdecode : decode (encode i) = .ok (i, []) := by simpa using decode_encode i []
  obtain ⟨hlen, -⟩ := operandCountIsTopTwoOpcodeBits i.opcode i.operandBytes i [] hdecode
  simp [encode, operandCount, hlen, Nat.add_comm]

namespace Machine

/-- The fetch finds the instruction that the three bytes from pc begin with: it looks at no more of them. -/
theorem State.fetchInstr_of_decode {s : State} {i : Instr} {rest : List Byte}
    (h : decode [s.read s.pc, s.read (s.pc + 1#8), s.read (s.pc + 2#8)] = .ok (i, rest)) : s.fetchInstr = .ok i := by
  obtain ⟨e, a, b, hd, rfl, htake⟩ := decode_cons_ok h
  rw [State.fetchInstr_eq, hd]
  exact congrArg Except.ok (Format.build_eq_of_take htake)

/-- Settles O5: the instruction decoded from the three bytes is the one fetched. -/
theorem stepExecutesTheDecodedInstruction : Obligations.StepExecutesTheDecodedInstruction :=
  fun _ _ _ hrun hdecode => step_of_fetch hrun (State.fetchInstr_of_decode hdecode)

/-! ### PRN and HLT -/

theorem execPrn_legal {a : Byte} {s : State} (ha : a.toNat < 8) :
    execPrn a s = .next ((s.emit (s.reg ⟨a.toNat, ha⟩)).advance 1) := withReg_legal ha

/-- Settles O30: the state PRN leaves where its operand is legal. -/
theorem prnAppendsTheRegister : Obligations.PrnAppendsTheRegister := fun _ _ ha => execPrn_legal ha

/-- Settles O32: HLT halts and advances pc. -/
theorem hltHaltsAndChangesNothingElse : Obligations.HltHaltsAndChangesNothingElse :=
  fun s => ⟨s.halt.advance 0, rfl, rfl⟩

/-! ### Every instruction has a next state -/

section Next

variable {opcode a b : Byte} {s : State}

theorem withReg_next {which : OperandPos} {k : Reg → Result} (hk : ∀ r, ∃ t, k r = .next t) :
    ∃ t, withReg opcode which a s k = .next t := by
  obtain ⟨ha, e⟩ | ⟨-, e⟩ := withReg_cases opcode a which s k
  · exact e ▸ hk _
  · exact ⟨_, e⟩

theorem withRegs_next {k : Reg → Reg → Result} (hk : ∀ r q, ∃ t, k r q = .next t) :
    ∃ t, withRegs opcode a b s k = .next t := withReg_next fun r => withReg_next (hk r)

theorem ite_next {c : Prop} [Decidable c] (x y : State) :
    ∃ t, (if c then .next x else .next y : Result) = .next t := ⟨_, (apply_ite _ c x y).symm⟩

end Next

theorem exec_next (i : Instr) (s : State) : ∃ t, exec i s = .next t := by
  cases i with
  | hlt | ret => exact ⟨_, rfl⟩
  | push | pop | prn | call | inc | dec | not | ldi => exact withReg_next fun _ => ⟨_, rfl⟩
  | jmp | jeq | jne | jgt | jlt | jle => exact withReg_next fun _ => ite_next _ _
  | st | add | sub | mul | cmp | and | or | xor | shl | shr => exact withRegs_next fun _ _ => ⟨_, rfl⟩
  | div | mod => exact withRegs_next fun _ _ => ite_next _ _

theorem step_next {s : State} (hrun : s.halted = false) : ∃ t, step s = .next t := by
  cases hf : s.fetchInstr with
  | ok i => exact step_of_fetch hrun hf ▸ exec_next i s
  | error e => exact ⟨s.takeDecodeFault, by simp [step, State.stopReason, hrun, hf]⟩

/-! ### What halts a run -/

/-- An instruction leaves the run going or halted as it was, unless it is HLT or takes a fault. -/
theorem Effect.halted_cases {i : Instr} {s t : State} (h : Effect s i t) :
    t.halted = s.halted ∨ i = .hlt ∨ t.fault.isSome := by
  cases h with
  | halt => exact .inr (.inl rfl)
  | operandA | operandB | zeroDivisor => exact .inr (.inr rfl)
  | _ => exact .inl rfl

theorem step_halted {s t : State} (h : step s = .next t) (hstop : t.halted = true) :
    s.read s.pc = 0x01#8 ∨ t.fault.isSome := by
  obtain ⟨hrun, ⟨i, hfetch, hexec⟩ | ⟨-, rfl⟩⟩ := step_cases h
  · obtain hkept | rfl | hfault := (exec_effect hexec).halted_cases
    · simp [hkept, hrun] at hstop
    · exact .inl (State.fetchInstr_opcode hfetch).symm
    · exact .inr hfault
  · exact .inr rfl

theorem exec_jmp_self {s : State} {a : Byte} (ha : a.toNat < 8) (hself : s.reg ⟨a.toNat, ha⟩ = s.pc) :
    exec (.jmp a) s = .next s := by
  change jumpIf _ condJmp a s = _
  rw [jumpIf_legal ha, hself]
  rfl

/-- Settles O12: a running core has a next state, which only HLT or a fault leaves halted. -/
theorem onlyHltOrAFaultStopsARun : Obligations.OnlyHltOrAFaultStopsARun := by
  refine ⟨fun s hrun => ?_, fun _ _ => exec_jmp_self⟩
  obtain ⟨t, ht⟩ := step_next hrun
  exact ⟨t, ht, step_halted ht⟩

/-! ### pc after an instruction that leaves the core running -/

section Running

variable {opcode a b : Byte} {i : Instr} {s t : State}

/-- An instruction that leaves the core running has passed the check of its register operand. -/
theorem withReg_running {which : OperandPos} {k : Reg → Result} (h : withReg opcode which a s k = .next t)
    (hgo : t.halted = false) : ∃ ha : a.toNat < 8, k ⟨a.toNat, ha⟩ = .next t := by
  obtain ⟨ha, e⟩ | ⟨-, e⟩ := withReg_cases opcode a which s k
  · exact ⟨ha, e.symm.trans h⟩
  · cases e.symm.trans h
    cases hgo

theorem withRegs_running {k : Reg → Reg → Result} (h : withRegs opcode a b s k = .next t) (hgo : t.halted = false) :
    ∃ (ha : a.toNat < 8) (hb : b.toNat < 8), k ⟨a.toNat, ha⟩ ⟨b.toNat, hb⟩ = .next t := by
  obtain ⟨ha, hk⟩ := withReg_running h hgo
  exact ⟨ha, withReg_running hk hgo⟩

theorem aluDivide_pc {f : Byte → Byte → Byte} (h : aluDivide opcode f a b s = .next t) (hgo : t.halted = false) :
    t.pc = s.pc + 3#8 := by
  obtain ⟨ha, hb, hk⟩ := withRegs_running h hgo
  split at hk
  · cases hk
    cases hgo
  · cases hk
    rfl

theorem jumpIf_pc {cond : Flags → Bool} (h : jumpIf opcode cond a s = .next t) (hgo : t.halted = false) :
    ∃ ha : a.toNat < 8, t.pc = if cond s.flags then s.reg ⟨a.toNat, ha⟩ else s.pc + 2#8 := by
  obtain ⟨ha, -⟩ := withReg_running h hgo
  cases (jumpIf_legal ha).symm.trans h
  exact ⟨ha, rfl⟩

theorem exec_jump_pc (hj : i.isJump = true) (h : exec i s = .next t) (hgo : t.halted = false) :
    ∃ (v : Byte) (hv : v.toNat < 8), i.regA = some v ∧
      t.pc = if i.redirects s.flags then s.reg ⟨v.toNat, hv⟩ else s.pc + 2#8 := by
  cases i with
  | jmp v | jeq v | jne v | jgt v | jlt v | jle v =>
    obtain ⟨hv, hpc⟩ := jumpIf_pc h hgo
    exact ⟨v, hv, rfl, hpc⟩
  | _ => cases hj

theorem exec_call_pc (h : exec (.call a) s = .next t) (hgo : t.halted = false) :
    ∃ ha : a.toNat < 8, t.pc = s.preDecSp.reg ⟨a.toNat, ha⟩ := by
  obtain ⟨ha, hk⟩ := withReg_running h hgo
  cases hk
  exact ⟨ha, rfl⟩

/-- An instruction that does not redirect advances pc by its length (40_execution_cycle.md R67). -/
theorem exec_pc_of_not_redirects (hr : i.redirects s.flags = false) (h : exec i s = .next t)
    (hgo : t.halted = false) : t.pc = s.pc + BitVec.ofNat 8 (1 + operandCount i.opcode) := by
  rw [← length_encode]
  cases i with
  | hlt => cases h; cases hgo
  | ret | call => cases hr
  | push | pop | prn | inc | dec | not | ldi =>
    obtain ⟨_, hk⟩ := withReg_running h hgo
    cases hk
    rfl
  | st | add | sub | mul | cmp | and | or | xor | shl | shr =>
    obtain ⟨_, _, hk⟩ := withRegs_running h hgo
    cases hk
    rfl
  | div | mod => exact aluDivide_pc h hgo
  | jmp | jeq | jne | jgt | jlt | jle =>
    obtain ⟨v, hv, -, hpc⟩ := exec_jump_pc rfl h hgo
    exact hpc.trans (if_neg (by simp [hr]))

end Running

end Machine

/-! ### The instructions that redirect -/

theorem Instr.redirects_cases {i : Instr} {f : Machine.Flags} (h : i.redirects f = true) :
    i = .ret ∨ (∃ a, i = .call a) ∨ i.isJump = true := by
  cases i with
  | ret => exact .inl rfl
  | call a => exact .inr (.inl ⟨a, rfl⟩)
  | jmp | jeq | jne | jgt | jlt | jle => exact .inr (.inr rfl)
  | _ => cases h

/-- The decoder marks `ct` the row of every instruction that can redirect (30_encoding.md R54). -/
theorem Instr.ct_of_redirects {i : Instr} {f : Machine.Flags} {e : Entry} (h : i.redirects f = true)
    (he : decodeOpcode i.opcode = some e) : e.ct = true := by
  have hrow : (decodeOpcode i.opcode).map Entry.ct = some true := by
    cases i with
    | ret | call | jmp | jeq | jne | jgt | jlt | jle => rfl
    | _ => cases h
  simpa [he] using hrow

/-- The operand byte that holds a register's index selects that register. -/
theorem reg_of_operandByte (r : Reg) (h : (BitVec.ofNat 8 r.val).toNat < 8) :
    (⟨(BitVec.ofNat 8 r.val).toNat, h⟩ : Reg) = r :=
  Fin.ext (Nat.mod_eq_of_lt (by omega))

namespace Machine

/-- Settles O45: pc after each kind of control transfer, and after all else. -/
theorem pcIsRedirectedOrAdvanced : Obligations.PcIsRedirectedOrAdvanced := by
  intro i s t e hexec hgo he
  refine ⟨fun hr => Instr.ct_of_redirects hr he, fun hr => exec_pc_of_not_redirects hr hexec hgo, ?_, ?_, ?_⟩
  · rintro rfl
    cases hexec
    rfl
  · rintro r rfl
    obtain ⟨ha, hpc⟩ := exec_call_pc hexec hgo
    rw [hpc, reg_of_operandByte]
    exact s.preDecSp_reg r
  · intro r hr hret hcall hA
    obtain rfl | ⟨a, rfl⟩ | hj := Instr.redirects_cases hr
    · exact absurd rfl hret
    · exact absurd (congrArg Instr.call (Option.some.inj hA)) hcall
    · obtain ⟨v, hv, hv', hpc⟩ := exec_jump_pc hj hexec hgo
      cases hv'.symm.trans hA
      rw [hpc, if_pos hr, reg_of_operandByte]

end Machine

end Sys2Proof

/-! PROOFS. The stack and the calls (41_stack_call.md): what PUSH, POP and CALL through R0 to R6, and RET, leave. -/

namespace Sys2Proof.Machine

/-! ### SP -/

theorem State.pushAddr_toNat (s : State) : s.pushAddr.toNat = (s.sp.toNat + 255) % 256 := by
  rw [State.pushAddr, BitVec.toNat_sub, Nat.add_comm]
  rfl

/-- Writing a register other than R7 leaves SP. -/
theorem State.setReg_sp_ne (s : State) {r : Reg} (v : Byte) (h : r ≠ Config.spReg) : (s.setReg r v).sp = s.sp :=
  State.setReg_reg_ne s v h.symm

theorem operand_ne_spReg {a : Byte} (ha : a.toNat < 8) (h7 : a ≠ 7#8) : (⟨a.toNat, ha⟩ : Reg) ≠ Config.spReg := by
  intro h
  have hval : a.toNat = 7 := congrArg Fin.val h
  exact h7 (BitVec.eq_of_toNat_eq hval)

/-! ### The register frame of the stack instructions -/

namespace Effect

variable {i : Instr} {s t : State}

/-- The register frame of an instruction that may write its operand's register and R7, as PUSH and POP may. -/
theorem regsKept_of_writes_operand_sp {a : Byte} (h : Effect s i t) (ha : a.toNat < 8)
    (hw : ∀ r, i.writesReg r = (a.toNat == r.val || r == 7)) : RegsKeptExcept [⟨a.toNat, ha⟩, 7] s t := by
  intro r hr
  obtain ⟨hra, hsp⟩ : r.val ≠ a.toNat ∧ r ≠ 7 := by simpa [Fin.ext_iff] using hr
  exact h.reg_kept (by simp [hw, hra.symm, hsp])

/-- The register frame of an instruction that may write R7 alone, as CALL and RET may. -/
theorem regsKept_of_writes_sp (h : Effect s i t) (hw : ∀ r, i.writesReg r = (r == 7)) : RegsKeptExcept [7] s t := by
  intro r hr
  have hsp : r ≠ 7 := by simpa using hr
  exact h.reg_kept (by simp [hw, hsp])

end Effect

/-! ### PUSH and POP -/

/-- Settles O34: the operand's register is not SP, so the decrement does not reach the value pushed, and zeroing the
register does not reach SP. -/
theorem pushResult : Obligations.PushResult := by
  intro s a ha h7
  have hexec : exec (.push a) s = .next _ := execPush_legal ha
  have heff := exec_effect hexec
  have hne := operand_ne_spReg ha h7
  refine ⟨_, hexec, ?sp, s.pushAddr_toNat, ?stored, State.setReg_reg_same _ _ _,
    heff.regsKept_of_writes_operand_sp ha (fun _ => rfl), heff.memKeptExcept, rfl, ⟨rfl, rfl, rfl⟩, rfl⟩
  case sp => rw [State.advance_sp, State.setReg_sp_ne _ _ hne, State.write_sp, State.preDecSp_sp]
  case stored =>
    rw [State.advance_read, State.setReg_read, State.write_read_same, State.preDecSp_reg_ne s hne]

/-- Settles O37: the operand's register is not SP, so the byte loaded does not reach SP, and the increment does not
reach the register. -/
theorem popResult : Obligations.PopResult := by
  intro s a ha h7
  have hexec : exec (.pop a) s = .next _ := execPop_legal ha
  have heff := exec_effect hexec
  have hne := operand_ne_spReg ha h7
  refine ⟨_, hexec, ?loaded, ?sp, heff.regsKept_of_writes_operand_sp ha (fun _ => rfl), fun _ => rfl, rfl,
    ⟨rfl, rfl, rfl⟩, rfl⟩
  case loaded => rw [State.advance_reg, State.postIncSp_reg_ne _ hne, State.setReg_reg_same]
  case sp =>
    rw [State.advance_sp, State.postIncSp_sp, State.setReg_sp_ne s _ hne]
    exact BitVec.toNat_add s.sp 1#8

/-! ### CALL and RET -/

/-- Settles O39: the operand's register is not SP, so the decrement does not reach the target. -/
theorem callResult : Obligations.CallResult := by
  intro s a ha h7
  have hexec : exec (.call a) s = .next _ := execCall_legal ha
  have heff := exec_effect hexec
  refine ⟨_, hexec, s.preDecSp_sp, ?returnAddr, s.preDecSp_reg_ne (operand_ne_spReg ha h7),
    heff.regsKept_of_writes_sp (fun _ => rfl), heff.memKeptExcept, rfl, rfl, rfl, rfl⟩
  case returnAddr =>
    rw [State.setPc_read, State.write_read_same]
    exact BitVec.toNat_add s.pc 2#8

/-- Settles O41: RET has no operand, so it always completes; of the state it writes pc and SP. -/
theorem retResult : Obligations.RetResult := by
  refine ⟨rfl, fun s => ?_⟩
  have hexec : exec .ret s = .next (s.setPc (s.read s.sp)).postIncSp := rfl
  have heff := exec_effect hexec
  refine ⟨_, hexec, rfl, ?sp, heff.regsKept_of_writes_sp (fun _ => rfl), fun _ => rfl, rfl, rfl, rfl, rfl⟩
  case sp =>
    rw [State.postIncSp_sp, State.setPc_sp]
    exact BitVec.toNat_add s.sp 1#8

end Sys2Proof.Machine

/-! PROOFS. The jumps (42_jumps.md): the whole state each leaves where its register operand is legal. -/

namespace Sys2Proof.Machine

/-- The pseudocode all six jumps share (R78), with `Instr.redirects` the condition of each. -/
theorem exec_jump_legal {i : Instr} {a : Byte} {s : State} (hj : i.isJump = true) (hA : i.regA = some a)
    (ha : a.toNat < 8) :
    exec i s = .next { s with pc := if i.redirects s.flags then s.reg ⟨a.toNat, ha⟩ else s.pc + 2#8 } := by
  cases i with
  | jmp v | jeq v | jne v | jgt v | jlt v | jle v =>
    cases hA
    exact jumpIf_legal ha
  | _ => cases hj

/-- Settles O44: `exec_jump_legal` for each jump. The condition is the one R79 to R84 name as it stands, but for JNE,
whose branches the statement exchanges (R81), and JLE, which the model computes as a Boolean (R84). -/
theorem jumpResults : Obligations.JumpResults := by
  intro s a ha x next
  refine ⟨exec_jump_legal rfl rfl ha, exec_jump_legal rfl rfl ha, ?jne, exec_jump_legal rfl rfl ha,
    exec_jump_legal rfl rfl ha, ?jle⟩
  case jne =>
    have hcond : (Instr.jne a).redirects s.flags = true ↔ ¬ s.flags.E = true := Bool.not_iff_not
    rw [exec_jump_legal rfl rfl ha, if_congr hcond rfl rfl, ite_not]
  case jle =>
    have hcond : (Instr.jle a).redirects s.flags = true ↔ s.flags.L = true ∨ s.flags.E = true := Bool.or_eq_true_iff
    rw [exec_jump_legal rfl rfl ha, if_congr hcond rfl rfl]

end Sys2Proof.Machine

/-! PROOFS. Register transfer (43_register_transfer.md): what LDI and ST leave, and PRN after LDI. -/

namespace Sys2Proof.Machine

/-- A write of one register followed by the advance past the operand bytes has the frame of `CompletesWriting`. -/
theorem completesWriting_of_exec_setReg {i : Instr} {s : State} {d : Reg} {v : Byte} {n : Nat}
    (h : exec i s = .next ((s.setReg d v).advance n)) : CompletesWriting i (1 + n) s d v.toNat := by
  refine ⟨_, h, ?written, ?others, rfl, fun _ => rfl, ⟨rfl, rfl, rfl⟩, rfl⟩
  case written => rw [State.advance_reg, State.setReg_reg_same]
  case others =>
    intro r hr
    rw [State.advance_reg, State.setReg_reg_ne s v (List.ne_of_not_mem_cons hr)]

theorem execLdi_legal {a imm : Byte} {s : State} (ha : a.toNat < 8) :
    execLdi a imm s = .next ((s.setReg ⟨a.toNat, ha⟩ imm).advance 2) := withReg_legal ha

theorem execSt_legal {a b : Byte} {s : State} (ha : a.toNat < 8) (hb : b.toNat < 8) :
    execSt a b s = .next ((s.setReg ⟨a.toNat, ha⟩ (s.reg ⟨b.toNat, hb⟩)).advance 2) :=
  (withReg_legal ha).trans (withReg_legal hb)

/-- Settles O28: LDI with a legal operand is the write of the immediate and the advance. -/
theorem ldiResult : Obligations.LdiResult :=
  fun _ a imm ha => completesWriting_of_exec_setReg (i := .ldi a imm) (execLdi_legal ha)

/-- Settles O29: ST with legal operands is the write of operand B's register and the advance. -/
theorem stResult : Obligations.StResult :=
  fun _ a b ha hb => completesWriting_of_exec_setReg (i := .st a b) (execSt_legal ha hb)

/-- Settles O31: PRN emits what its register holds, and the advance of LDI leaves the immediate there. -/
theorem ldiThenPrnEmitsTheImmediate : Obligations.LdiThenPrnEmitsTheImmediate := by
  intro s t a imm ha hldi
  obtain rfl : (s.setReg ⟨a.toNat, ha⟩ imm).advance 2 = t :=
    Host.Outcome.next.inj ((execLdi_legal ha).symm.trans hldi)
  refine ⟨_, execPrn_legal ha, ?emitted, fun _ => rfl, rfl⟩
  case emitted =>
    rw [State.advance_out, State.emit_out, State.advance_out, State.setReg_out, State.advance_reg,
      State.setReg_reg_same]

end Sys2Proof.Machine

/-! PROOFS. The ALU (44_alu.md): what its instructions leave where their register operands are legal. Each function's value
as a number is said once; the shared forms of R89 carry it into the register file. -/

namespace Sys2Proof.Machine

/-! ### The ALU's functions on unsigned numbers -/

theorem aluAdd_toNat (x y : Byte) : (aluAdd x y).toNat = (x.toNat + y.toNat) % 256 := BitVec.toNat_ofNat _ _

theorem aluMul_toNat (x y : Byte) : (aluMul x y).toNat = x.toNat * y.toNat % 256 := BitVec.toNat_ofNat _ _

theorem aluDiv_toNat (x y : Byte) : (aluDiv x y).toNat = x.toNat / y.toNat := by
  rw [aluDiv_eq, BitVec.toNat_udiv]

theorem aluMod_toNat (x y : Byte) : (aluMod x y).toNat = x.toNat % y.toNat := by
  rw [aluMod_eq, BitVec.toNat_umod]

theorem aluInc_toNat (x : Byte) : (aluInc x).toNat = (x.toNat + 1) % 256 := BitVec.toNat_ofNat _ _

theorem aluDec_toNat (x : Byte) : (aluDec x).toNat = (((x.toNat : Int) - 1) % 256).toNat := BitVec.toNat_ofInt _

theorem aluNot_toNat (x : Byte) : (aluNot x).toNat = 255 - x.toNat := by
  rw [aluNot_eq, BitVec.toNat_not]

/-! ### The shared forms of R89 -/

section Forms

variable {i : Instr} {a b opcode : Byte} {s t : State} {f : Byte → Byte → Byte} {g : Byte → Byte} {v : Nat}

theorem completesWriting_of_aluBinary (hexec : exec i s = aluBinary i.opcode f a b s) (ha : a.toNat < 8)
    (hb : b.toNat < 8) (hv : (f (s.reg ⟨a.toNat, ha⟩) (s.reg ⟨b.toNat, hb⟩)).toNat = v) :
    CompletesWriting i 3 s ⟨a.toNat, ha⟩ v :=
  hv ▸ completesWriting_of_exec_setReg (hexec.trans (aluBinary_legal ha hb))

theorem completesWriting_of_aluUnary (hexec : exec i s = aluUnary i.opcode g a s) (ha : a.toNat < 8)
    (hv : (g (s.reg ⟨a.toNat, ha⟩)).toNat = v) : CompletesWriting i 2 s ⟨a.toNat, ha⟩ v :=
  hv ▸ completesWriting_of_exec_setReg (hexec.trans (aluUnary_legal ha))

/-- The guard of DIV and MOD (R93, R94) takes the fault, whatever the operation. -/
theorem aluDivide_zero (ha : a.toNat < 8) (hb : b.toNat < 8) (h0 : s.reg ⟨b.toNat, hb⟩ = 0#8) :
    aluDivide opcode f a b s = .next (s.faulted ⟨.arithmeticFault, opcode, s.pc, none⟩) :=
  (aluDivide_legal ha hb).trans (if_pos h0)

theorem aluDivide_nonzero (ha : a.toNat < 8) (hb : b.toNat < 8) (hy : (s.reg ⟨b.toNat, hb⟩).toNat ≠ 0) :
    aluDivide opcode f a b s =
      .next ((s.setReg ⟨a.toNat, ha⟩ (f (s.reg ⟨a.toNat, ha⟩) (s.reg ⟨b.toNat, hb⟩))).advance 2) := by
  have hne : s.reg ⟨b.toNat, hb⟩ ≠ 0#8 := fun h0 => hy (congrArg BitVec.toNat h0)
  rw [aluDivide_legal ha hb, if_neg hne]

/-- What the destination holds after a division that did not fault. -/
theorem aluDivide_reg (h : aluDivide opcode f a b s = .next t) (ha : a.toNat < 8) (hb : b.toNat < 8)
    (hy : (s.reg ⟨b.toNat, hb⟩).toNat ≠ 0) :
    t.reg ⟨a.toNat, ha⟩ = f (s.reg ⟨a.toNat, ha⟩) (s.reg ⟨b.toNat, hb⟩) := by
  cases (aluDivide_nonzero ha hb hy).symm.trans h
  rw [State.advance_reg, State.setReg_reg_same]

end Forms

/-! ### Division -/

/-- Settles O22: Euclid's division law on the two results, each read off the destination register. -/
theorem quotientAndRemainderRecomposeTheDividend : Obligations.QuotientAndRemainderRecomposeTheDividend := by
  intro s t u a b ha hb hy hdiv hmod
  rw [aluDivide_reg hdiv ha hb hy, aluDivide_reg hmod ha hb hy, aluDiv_toNat, aluMod_toNat]
  exact ⟨(Nat.div_add_mod' _ _).symm, Nat.mod_lt _ (Nat.pos_of_ne_zero hy)⟩

/-- Settles O15: both instructions share the guard, each with its own opcode in the record. -/
theorem divisionByZeroFaults : Obligations.DivisionByZeroFaults :=
  fun _ _ _ hb ha h0 => ⟨aluDivide_zero ha hb h0, aluDivide_zero ha hb h0⟩

/-! ### The results of the other two-register and one-register operations -/

/-- Settles O19: the two-register form with the values of `aluAdd` and `aluMul`. -/
theorem addAndMulResults : Obligations.AddAndMulResults :=
  fun _ _ _ ha hb =>
    ⟨completesWriting_of_aluBinary rfl ha hb (aluAdd_toNat _ _),
      completesWriting_of_aluBinary rfl ha hb (aluMul_toNat _ _)⟩

/-- Settles O23: the two-register form; the bytes written are those of the bit-vector operations, whose bits are the Boolean
operations on the operands' bits. -/
theorem bitwiseResults : Obligations.BitwiseResults := by
  intro s a b ha hb x y
  refine ⟨aluAnd x y, aluOr x y, aluXor x y, completesWriting_of_aluBinary rfl ha hb rfl,
    completesWriting_of_aluBinary rfl ha hb rfl, completesWriting_of_aluBinary rfl ha hb rfl,
    fun k _ => ⟨?and, ?or, ?xor⟩⟩
  case and => rw [aluAnd, BitVec.getLsbD_and, Bool.and_eq_true_iff]
  case or => rw [aluOr, BitVec.getLsbD_or, Bool.or_eq_true_iff]
  case xor => rw [aluXor, BitVec.getLsbD_xor, ← Bool.eq_iff_iff, bne_iff_ne]

/-- Settles O25: the one-register form with the values of `aluInc`, `aluDec` and `aluNot`. -/
theorem incDecNotResults : Obligations.IncDecNotResults :=
  fun _ _ ha =>
    ⟨completesWriting_of_aluUnary rfl ha (aluInc_toNat _), completesWriting_of_aluUnary rfl ha (aluDec_toNat _),
      completesWriting_of_aluUnary rfl ha (aluNot_toNat _)⟩

/-! ### CMP -/

theorem execCmp_legal {a b : Byte} {s : State} (ha : a.toNat < 8) (hb : b.toNat < 8) :
    execCmp a b s =
      .next ((s.setFlags (compareFlags (s.reg ⟨a.toNat, ha⟩) (s.reg ⟨b.toNat, hb⟩))).advance 2) :=
  (withReg_legal ha).trans (withReg_legal hb)

/-- Settles O26: the flags written are those of `compareFlags`, of which exactly one is set. -/
theorem cmpRecomputesTheFlags : Obligations.CmpRecomputesTheFlags := by
  intro s a b ha hb x y
  obtain ⟨hE, hG, hL⟩ := compareFlags_toNat (s.reg ⟨a.toNat, ha⟩) (s.reg ⟨b.toNat, hb⟩)
  exact ⟨_, execCmp_legal ha hb, hE, hG, hL, compareFlags_exactlyOne _ _⟩

/-- Settles O27: CMP writes no register, so the second one compares the values the first one did, and the flags it
writes are already there. -/
theorem cmpIsIdempotent : Obligations.CmpIsIdempotent := by
  intro s t a b ha hb hcmp
  have ht := Host.Outcome.next.inj ((execCmp_legal ha hb).symm.trans hcmp)
  have hregs : ∀ r, t.reg r = s.reg r := fun r => by rw [← ht, State.advance_reg, State.setFlags_reg]
  have hflags : compareFlags (t.reg ⟨a.toNat, ha⟩) (t.reg ⟨b.toNat, hb⟩) = t.flags := by
    rw [hregs, hregs, ← ht, State.advance_flags, State.setFlags_flags]
  have hexec : exec (.cmp a b) t = .next _ := execCmp_legal ha hb
  rw [hflags] at hexec
  exact ⟨_, hexec, rfl, rfl⟩

end Sys2Proof.Machine

/-! PROOFS. The faults (60_exceptions.md): an instruction completes exactly where its register operands are legal and it
does not divide by zero. -/

namespace Sys2Proof

theorem Instr.wellFormed_iff {i : Instr} :
    i.wellFormed = true ↔ (∀ v, i.regA = some v → v.toNat < 8) ∧ ∀ v, i.regB = some v → v.toNat < 8 := by
  have hoperand : ∀ o, regOperandOk o = true ↔ ∀ v, o = some v → v.toNat < 8 := by
    intro o
    cases o with
    | none => exact iff_of_true rfl nofun
    | some v => simp [regOperandOk]
  rw [Instr.wellFormed, Bool.and_eq_true_iff, hoperand, hoperand]

section WellFormed

variable {i : Instr} {a b : Byte}

theorem Instr.wellFormed_of_regA (hA : i.regA = some a) (hB : i.regB = none) (ha : a.toNat < 8) :
    i.wellFormed = true :=
  Instr.wellFormed_iff.mpr ⟨fun _ hv => Option.some.inj (hA.symm.trans hv) ▸ ha, by simp [hB]⟩

theorem Instr.wellFormed_of_regs (hA : i.regA = some a) (hB : i.regB = some b) (ha : a.toNat < 8) (hb : b.toNat < 8) :
    i.wellFormed = true :=
  Instr.wellFormed_iff.mpr
    ⟨fun _ hv => Option.some.inj (hA.symm.trans hv) ▸ ha, fun _ hv => Option.some.inj (hB.symm.trans hv) ▸ hb⟩

end WellFormed

namespace Machine

variable {i : Instr} {s t : State}

/-- Each of the three faults of `exec` has its ground: with legal operands and no zero divisor none is taken. -/
theorem Effect.fault_kept (h : Effect s i t) (hwf : i.wellFormed = true) (hdiv : ¬ i.dividesByZero s) :
    t.fault = s.fault := by
  obtain ⟨hregA, hregB⟩ := Instr.wellFormed_iff.mp hwf
  cases h with
  | operandA hA hv => exact absurd (hregA _ hA) (Nat.not_lt.mpr hv)
  | operandB _ _ hB hv => exact absurd (hregB _ hB) (Nat.not_lt.mpr hv)
  | zeroDivisor hz => exact absurd hz hdiv
  | _ => rfl

theorem aluDivide_running {opcode a b : Byte} {f : Byte → Byte → Byte} (h : aluDivide opcode f a b s = .next t)
    (hgo : t.halted = false) :
    a.toNat < 8 ∧ b.toNat < 8 ∧ ¬ ∃ hb : b.toNat < 8, s.reg ⟨b.toNat, hb⟩ = 0#8 := by
  obtain ⟨ha, hb, -⟩ := withRegs_running h hgo
  refine ⟨ha, hb, fun ⟨_, h0⟩ => ?_⟩
  cases (aluDivide_zero ha hb h0).symm.trans h
  cases hgo

/-- An instruction that leaves the core running has passed the checks of its operands and of its divisor. -/
theorem exec_running_legal (h : exec i s = .next t) (hgo : t.halted = false) :
    i.wellFormed = true ∧ ¬ i.dividesByZero s := by
  cases i with
  | hlt | ret => exact ⟨rfl, id⟩
  | push | pop | prn | call | jmp | jeq | jne | jgt | jlt | jle | inc | dec | not | ldi =>
    obtain ⟨ha, -⟩ := withReg_running h hgo
    exact ⟨Instr.wellFormed_of_regA rfl rfl ha, id⟩
  | st | add | sub | mul | cmp | and | or | xor | shl | shr =>
    obtain ⟨ha, hb, -⟩ := withRegs_running h hgo
    exact ⟨Instr.wellFormed_of_regs rfl rfl ha hb, id⟩
  | div | mod =>
    obtain ⟨ha, hb, hdiv⟩ := aluDivide_running h hgo
    exact ⟨Instr.wellFormed_of_regs rfl rfl ha hb, hdiv⟩

/-- The grounds of the faults of `exec` (R108, R109). HLT, which stops the core without a fault, has none of them. -/
theorem exec_fault_none_iff (h : exec i s = .next t) (hrun : s.halted = false) (hnone : s.fault = none) :
    t.fault = none ↔ i.wellFormed = true ∧ ¬ i.dividesByZero s := by
  have heff := exec_effect h
  constructor
  · intro hfault
    obtain hkept | rfl | hsome := heff.halted_cases
    · exact exec_running_legal h (hkept.trans hrun)
    · exact ⟨rfl, id⟩
    · simp [hfault] at hsome
  · rintro ⟨hwf, hdiv⟩
    exact (heff.fault_kept hwf hdiv).trans hnone

theorem State.fetchInstr_of_illegal (hd : decodeOpcode (s.read s.pc) = none) :
    s.fetchInstr = .error (.unknownOpcode (s.read s.pc)) := by
  rw [State.fetchInstr_eq, hd]

/-- Settles O16: a step that fetches an instruction faults on the grounds of `exec`, and one that finds an illegal opcode
always faults. -/
theorem aStepFaultsExactlyOnTheThreeCauses : Obligations.AStepFaultsExactlyOnTheThreeCauses := by
  intro s hrun hnone
  obtain ⟨t, hstep⟩ := step_next hrun
  refine ⟨t, hstep, ?_⟩
  obtain ⟨-, ⟨i, hfetch, hexec⟩ | ⟨hd, rfl⟩⟩ := step_cases hstep
  · simp [hfetch, exec_fault_none_iff hexec hrun hnone]
  · simp [State.fetchInstr_of_illegal hd]

end Machine

end Sys2Proof

/-! PROOFS. Reset and the end of a run (70_reset_and_hazards.md): what a launch leaves, the status code a host reads, and the
two hazards of PUSH: its source is lost, and the byte it stores can be the next opcode. -/

namespace Sys2Proof.Machine

/-! ### What the byte at pc makes a running core do -/

theorem State.fetchBytes_head? (s : State) : s.fetchBytes.head? = some (s.read s.pc) := by
  unfold State.fetchBytes instrLength
  cases decodeOpcode (s.read s.pc) <;> simp [State.bytesFrom, Nat.add_comm 1]

/-- A fetched instruction has the byte at pc as its opcode, and is the one executed. -/
theorem step_of_fetch_opcode {s : State} {i : Instr} (hrun : s.halted = false) (hfetch : s.fetchInstr = .ok i) :
    i.opcode = s.read s.pc ∧ step s = exec i s := ⟨State.fetchInstr_opcode hfetch, step_of_fetch hrun hfetch⟩

/-- The fetch answers an instruction exactly where the byte at pc is a legal opcode (30_encoding.md R56). -/
theorem State.exists_fetchInstr_iff {s : State} :
    (∃ i, s.fetchInstr = .ok i) ↔ (decodeOpcode (s.read s.pc)).isSome := by
  rw [State.fetchInstr_eq]
  cases decodeOpcode (s.read s.pc) <;> simp

/-! ### Launch -/

section Launch

variable (gpr : Fin 7 → Byte) (flags : Flags) (mem : Byte → Byte)

@[simp] theorem State.launch_read (x : Byte) : (State.launch gpr flags mem).read x = mem x := Memory.read_ofImage mem x

theorem State.launch_reg_castSucc (i : Fin 7) : (State.launch gpr flags mem).reg i.castSucc = gpr i := by
  fin_cases i <;> rfl

end Launch

/-- Settles O7: memory reads as the image, R0 to R6 are the seven bytes given, and the rest are the fields of `launch`. -/
theorem launchPutsEveryComponentInItsResetValue : Obligations.LaunchPutsEveryComponentInItsResetValue :=
  fun gpr flags mem =>
    ⟨State.launch_read gpr flags mem, State.launch_reg_castSucc gpr flags mem, rfl, rfl, rfl, rfl, rfl, rfl⟩

/-- Settles O8: a launched core runs, with pc at 0. -/
theorem firstStepFetchesAddressZero : Obligations.FirstStepFetchesAddressZero := by
  intro gpr flags mem s
  have hread : s.read s.pc = mem 0#8 := State.launch_read gpr flags mem 0#8
  rw [← hread]
  exact ⟨rfl, s.fetchBytes_head?, fun _ => step_of_fetch_opcode rfl⟩

/-! ### The status code -/

section StatusCode

variable {s : State}

theorem State.statusCode_of_running (hrun : s.halted = false) : s.statusCode = none := by
  simp [State.statusCode, State.status, hrun]

theorem State.statusCode_of_fault_none (hhalt : s.halted = true) (hfault : s.fault = none) : s.statusCode = some 0 := by
  simp [State.statusCode, State.status, hhalt, hfault]

theorem State.statusCode_of_fault {r : FaultRecord} (hhalt : s.halted = true) (hfault : s.fault = some r) :
    s.statusCode = some r.code.number := by
  simp [State.statusCode, State.status, hhalt, hfault]

end StatusCode

theorem FaultCode.number_eq_one_iff {c : FaultCode} : c.number = 1 ↔ c = .decodeFault := by
  cases c <;> decide

theorem FaultCode.number_eq_two_iff {c : FaultCode} : c.number = 2 ↔ c = .arithmeticFault := by
  cases c <;> decide

theorem FaultCode.number_cases (c : FaultCode) : c.number = 1 ∨ c.number = 2 ∨ c.number = 3 := by
  cases c <;> decide

/-- A record of an arithmetic fault names DIV or MOD (60_exceptions.md R109). -/
theorem FaultRecord.formOk.opcode_of_arithmeticFault {r : FaultRecord} (h : r.formOk) (hc : r.code = .arithmeticFault) :
    r.opcode = 0xA3#8 ∨ r.opcode = 0xA4#8 := by
  obtain ⟨code, opcode, addr, detail⟩ := r
  cases hc
  cases detail with
  | none => exact h
  | some _ => exact h.elim

/-- What a fault record says of the step that took it: it halted the core, the record names the byte fetched and has the
form of its cause, and the cause is a decode fault exactly where that byte is no legal opcode. -/
theorem step_fault_record {s t : State} {r : FaultRecord} (hnone : s.fault = none) (hstep : step s = .next t)
    (hr : t.fault = some r) :
    t.halted = true ∧ r.opcode = s.read s.pc ∧ r.formOk ∧
      (r.code = .decodeFault ↔ decodeOpcode (s.read s.pc) = none) := by
  obtain ⟨-, ⟨i, hfetch, hexec⟩ | ⟨hd, rfl⟩⟩ := step_cases hstep
  · have heff := exec_effect hexec
    have hcode := heff.fault_code hnone hr
    have hlegal := State.exists_fetchInstr_iff.mp ⟨i, hfetch⟩
    obtain hkept | ⟨code, detail, rfl, hform⟩ := heff.fault_cases
    · simp [hkept, hnone] at hr
    · cases hr
      exact ⟨rfl, State.fetchInstr_opcode hfetch, hform, iff_of_false hcode (Option.isSome_iff_ne_none.mp hlegal)⟩
  · cases hr
    exact ⟨rfl, rfl, trivial, iff_of_true rfl hd⟩

theorem State.fetchInstr_hlt {s : State} (h : s.read s.pc = 0x01#8) : s.fetchInstr = .ok .hlt := by
  rw [State.fetchInstr_eq, h]; rfl

/-- A step that fetches HLT halts the core and leaves the fault record alone (40_execution_cycle.md R69). -/
theorem step_hlt {s t : State} (hstep : step s = .next t) (hop : s.read s.pc = 0x01#8) :
    t.halted = true ∧ t.fault = s.fault := by
  obtain ⟨hrun, -⟩ := step_cases hstep
  cases (step_of_fetch hrun (State.fetchInstr_hlt hop)).symm.trans hstep
  exact ⟨rfl, rfl⟩

/-- Settles O18: the three statuses of a run, the last by what a step's fault record says. -/
theorem statusCodeAfterTheLastStep : Obligations.StatusCodeAfterTheLastStep := by
  intro s t hnone hstep
  refine ⟨fun hop => ?_, State.statusCode_of_running, fun r hr => ?_⟩
  · obtain ⟨hhalt, hkept⟩ := step_hlt hstep hop
    exact State.statusCode_of_fault_none hhalt (hkept.trans hnone)
  · obtain ⟨hhalt, hop, hform, hdecode⟩ := step_fault_record hnone hstep hr
    exact ⟨State.statusCode_of_fault hhalt hr, FaultCode.number_eq_one_iff.trans hdecode,
      fun h2 => hop ▸ hform.opcode_of_arithmeticFault (FaultCode.number_eq_two_iff.mp h2), r.code.number_cases⟩

/-! ### PUSH, and the byte it or a CALL stores -/

/-- Settles O36: zeroing the operand's register is the last write to it. -/
theorem pushDestroysItsSource : Obligations.PushDestroysItsSource :=
  fun _ _ ha => ⟨_, execPush_legal ha, State.setReg_reg_same _ _ _⟩

/-- Settles O51: the address stored to is where pc stands afterwards, so the next fetch reads the byte stored, and the core
still runs. -/
theorem thePushedByteIsTheNextOpcodeFetched : Obligations.ThePushedByteIsTheNextOpcodeFetched := by
  unfold Obligations.ThePushedByteIsTheNextOpcodeFetched
  intro runsAsOpcode s t a ha hrun
  have hruns : ∀ v, t.halted = false → t.read t.pc = v → runsAsOpcode t v := by
    rintro _ hgo rfl
    exact ⟨rfl, fun _ => step_of_fetch_opcode hgo, State.exists_fetchInstr_iff.mpr, step_of_illegal hgo⟩
  constructor
  · intro hpush hpc
    cases (execPush_legal ha).symm.trans hpush
    refine hruns _ hrun ?_
    rw [← State.preDecSp_operand ha, State.advance_read, State.setReg_read, hpc]
    exact State.write_read_same _ _ _
  · intro hcall htarget
    cases (execCall_legal ha).symm.trans hcall
    have hpc : s.preDecSp.reg ⟨a.toNat, ha⟩ = s.pushAddr := by
      rw [State.preDecSp_operand ha]
      exact ite_eq_left_iff.mpr htarget
    refine hruns _ hrun ?_
    rw [State.setPc_pc, State.setPc_read, hpc, State.write_read_same]

end Sys2Proof.Machine

/-! PROOFS. The statements on the spec's own decisions and inferences (92_eei_decisions.md) and on the host's loading helper:
what a stored table word runs, the exact states of the register index fault, the precision of faults, the operand order of
the ALU, the stack instructions on R7, and the two round trips of 41_stack_call.md. -/

namespace Sys2Proof

/-! ### A stored table word -/

theorem decode_tableBytes_of_decodeTableWord {nbits w : Nat} {i : Instr} (h : decodeTableWord nbits w = some i) :
    ∃ rest, decode (tableBytes nbits w) = .ok (i, rest) := by
  unfold decodeTableWord at h
  split at h
  · next rest hd =>
    cases h
    exact ⟨rest, hd⟩
  · cases h

namespace Machine

/-- Three bytes stored from `a` upward are read back there: three successive addresses differ, wrapping or not. -/
theorem State.writeBytes_three_read (s : State) (a x y z : Byte) :
    let u := s.writeBytes a [x, y, z]
    [u.read a, u.read (a + 1#8), u.read (a + 2#8)] = [x, y, z] := by
  have haddr : a + 1#8 + 1#8 = a + 2#8 := BitVec.add_assoc a 1#8 1#8
  simp [State.writeBytes, State.write_read, haddr]

/-- Settles O6: the three bytes stored are those the decoder reads at pc, and storing them leaves the core running. -/
theorem storedTableWordIsTheNextInstruction : Obligations.StoredTableWordIsTheNextInstruction := by
  intro s nbits w i hrun hword
  obtain ⟨rest, hdecode⟩ := decode_tableBytes_of_decodeTableWord hword
  exact stepExecutesTheDecodedInstruction (s.withFetchWord nbits w) i rest hrun
    ((congrArg decode (s.writeBytes_three_read s.pc _ _ _)).trans hdecode)

/-! ### Register index faults -/

/-- Settles O13: the check of operand A is the first thing each of these instructions does. -/
theorem registerOperandAOfEightOrMoreFaults : Obligations.RegisterOperandAOfEightOrMoreFaults := by
  intro i s v hA hv
  cases i with
  | hlt | ret => cases hA
  | _ =>
    cases hA
    exact withReg_illegal hv

/-- Settles O14: behind operand A's check, that of operand B comes before anything else, a zero divisor included. -/
theorem registerOperandBOfEightOrMoreFaults : Obligations.RegisterOperandBOfEightOrMoreFaults := by
  intro i s u v hA hu hB hv
  cases i with
  | st | add | sub | mul | div | mod | cmp | and | or | xor | shl | shr =>
    cases hA
    cases hB
    exact (withReg_legal hu).trans (withReg_illegal hv)
  | _ => cases hB

/-! ### The status of a run -/

/-- A step that records a fault is the taking of that fault, at pc (60_exceptions.md R111). -/
theorem step_faulted {s t : State} {r : FaultRecord} (hnone : s.fault = none) (hstep : step s = .next t)
    (hr : t.fault = some r) : t = s.faulted r ∧ r.addr = s.pc := by
  obtain ⟨-, ⟨i, -, hexec⟩ | ⟨-, rfl⟩⟩ := step_cases hstep
  · obtain hkept | ⟨code, detail, rfl, -⟩ := (exec_effect hexec).fault_cases
    · simp [hkept, hnone] at hr
    · cases hr
      exact ⟨rfl, rfl⟩
  · cases hr
    exact ⟨rfl, rfl⟩

/-- Settles O17: the state is that of the fault taken, and the record names the byte fetched. -/
theorem aFaultingStepChangesOnlyHaltedAndFault : Obligations.AFaultingStepChangesOnlyHaltedAndFault := by
  intro s t r hnone hstep hr
  obtain ⟨ht, haddr⟩ := step_faulted hnone hstep hr
  obtain ⟨-, hop, -, -⟩ := step_fault_record hnone hstep hr
  exact ⟨ht, haddr, hop⟩

theorem step_fault_none_of_running {s t : State} (hnone : s.fault = none) (hstep : step s = .next t)
    (hgo : t.halted = false) : t.fault = none := by
  cases hr : t.fault with
  | none => rfl
  | some r =>
    obtain ⟨rfl, -⟩ := step_faulted hnone hstep hr
    cases hgo

theorem step_of_halted {s : State} (h : s.halted = true) : step s = .fault .halted := by
  simp [step, State.stopReason, h]

/-- Settles O11: a step that leaves the core running took no fault, HLT takes none, and what else halts is a fault. -/
theorem faultIsNoneWhileRunningAndHaltedIsTerminal : Obligations.FaultIsNoneWhileRunningAndHaltedIsTerminal := by
  refine ⟨fun _ _ _ => ⟨rfl, rfl⟩, fun s t hnone hstep => ⟨step_fault_none_of_running hnone hstep, ?hlt, ?other⟩,
    ?halted⟩
  case hlt =>
    intro hop
    obtain ⟨hhalt, hkept⟩ := step_hlt hstep hop
    exact ⟨hhalt, hkept.trans hnone⟩
  case other => exact fun hhalt hop => (step_halted hstep hhalt).resolve_left hop
  case halted =>
    intro s hhalt
    rw [step_of_halted hhalt]
    exact ⟨nofun, rfl⟩

/-- Settles O33: HLT's one byte is the advance. -/
theorem hltLeavesPcAfterIt : Obligations.HltLeavesPcAfterIt := by
  intro s t hexec
  cases hexec
  exact BitVec.toNat_add s.pc 1#8

/-! ### The operand order of the ALU -/

theorem aluSub_toNat (x y : Byte) : (aluSub x y).toNat = (((x.toNat : Int) - y.toNat) % 256).toNat :=
  BitVec.toNat_ofInt _

theorem aluShl_toNat (x y : Byte) : (aluShl x y).toNat = x.toNat * 2 ^ y.toNat % 256 := BitVec.toNat_ofNat _ _

theorem aluShr_toNat (x y : Byte) : (aluShr x y).toNat = x.toNat / 2 ^ y.toNat := by
  rw [aluShr_eq, BitVec.toNat_ushiftRight, Nat.shiftRight_eq_div_pow]

theorem completesWriting_of_aluDivide {i : Instr} {a b : Byte} {s : State} {f : Byte → Byte → Byte} {v : Nat}
    (hexec : exec i s = aluDivide i.opcode f a b s) (ha : a.toNat < 8) (hb : b.toNat < 8)
    (hy : (s.reg ⟨b.toNat, hb⟩).toNat ≠ 0) (hv : (f (s.reg ⟨a.toNat, ha⟩) (s.reg ⟨b.toNat, hb⟩)).toNat = v) :
    CompletesWriting i 3 s ⟨a.toNat, ha⟩ v :=
  hv ▸ completesWriting_of_exec_setReg (hexec.trans (aluDivide_nonzero ha hb hy))

/-- Settles O20: the two-register form with the value of `aluSub`. -/
theorem subResult : Obligations.SubResult :=
  fun _ _ _ ha hb => completesWriting_of_aluBinary rfl ha hb (aluSub_toNat _ _)

/-- Settles O21: the guarded two-register form with the values of `aluDiv` and `aluMod`. -/
theorem divAndModResults : Obligations.DivAndModResults :=
  fun _ _ _ ha hb hy =>
    ⟨completesWriting_of_aluDivide rfl ha hb hy (aluDiv_toNat _ _),
      completesWriting_of_aluDivide rfl ha hb hy (aluMod_toNat _ _)⟩

/-- Settles O24: the two-register form with the values of `aluShl` and `aluShr`. -/
theorem shiftResults : Obligations.ShiftResults :=
  fun _ _ _ ha hb =>
    ⟨completesWriting_of_aluBinary rfl ha hb (aluShl_toNat _ _),
      completesWriting_of_aluBinary rfl ha hb (aluShr_toNat _ _)⟩

/-! ### PUSH, POP and CALL on R7 -/

@[simp] theorem State.setSp_sp (s : State) (v : Byte) : (s.setSp v).sp = v := State.setReg_reg_same s _ v

/-- Settles O35: the register read after the decrement is the decremented SP, and zeroing it is the last write to SP. -/
theorem pushOfR7Result : Obligations.PushOfR7Result := by
  intro s
  have ha : (7#8).toNat < 8 := by decide
  have hexec : exec (.push 7#8) s = .next (((s.preDecSp.write s.pushAddr s.pushAddr).setSp 0#8).advance 1) :=
    execPush_legal ha
  have heff := exec_effect hexec
  exact ⟨_, hexec, State.write_read_same _ _ _, State.setSp_sp _ _, heff.regsKept_of_writes_sp (by decide),
    heff.memKeptExcept, rfl, ⟨rfl, rfl, rfl⟩, rfl⟩

/-- Settles O38: load and increment together are one write of SP. -/
theorem popOfR7Result : Obligations.PopOfR7Result := by
  intro s
  have ha : (7#8).toNat < 8 := by decide
  have hexec : exec (.pop 7#8) s = .next ((s.setSp (s.read s.sp + 1#8)).advance 1) := execPop_legal ha
  have hv : (s.read s.sp + 1#8).toNat = ((s.read s.sp).toNat + 1) % 256 := BitVec.toNat_add _ _
  exact hv ▸ completesWriting_of_exec_setReg hexec

/-- Settles O40: the target is the decremented SP, which is the address stored to. -/
theorem callOfR7Result : Obligations.CallOfR7Result := by
  intro s
  have ha : (7#8).toNat < 8 := by decide
  have hexec : exec (.call 7#8) s = .next _ := execCall_legal ha
  have heff := exec_effect hexec
  exact ⟨_, hexec, s.preDecSp_sp, State.write_read_same _ _ _, s.preDecSp_sp,
    heff.regsKept_of_writes_sp (fun _ => rfl), heff.memKeptExcept, rfl, rfl, rfl, rfl⟩

/-! ### The round trips of the stack -/

/-- An increment after the decrement of a push or a call brings SP back. -/
theorem State.sp_restored {s t u : State} (hdec : t.sp = s.pushAddr) (hinc : u.sp.toNat = (t.sp.toNat + 1) % 256) :
    u.sp = s.sp := by
  apply BitVec.eq_of_toNat_eq
  have hlt := s.sp.isLt
  rw [hinc, hdec, s.pushAddr_toNat]
  omega

/-- Settles O42: POP loads the byte PUSH stored and undoes its decrement, and neither writes any other register. -/
theorem pushThenPopRestoresTheRegisters : Obligations.PushThenPopRestoresTheRegisters := by
  intro s t a ha h7 hpush
  obtain ⟨t', ht', hsp, -, hstored, -, hregs, hmem, -⟩ := pushResult s a ha h7
  cases ht'.symm.trans hpush
  obtain ⟨u, hu, hloaded, hinc, hregs', hmem', -⟩ := popResult t a ha h7
  refine ⟨u, hu, Regs.ext_get fun r => ?_, (hmem' _).trans hstored, fun x hx => (hmem' x).trans (hmem x hx)⟩
  by_cases hra : r = ⟨a.toNat, ha⟩
  · subst hra
    exact hloaded.trans (hsp ▸ hstored)
  by_cases hr7 : r = 7
  · subst hr7
    exact State.sp_restored hsp hinc
  · have hr : r ∉ [⟨a.toNat, ha⟩, (7 : Reg)] := by simp [hra, hr7]
    exact (hregs' r hr).trans (hregs r hr)

/-- Settles O43: RET reads the return address CALL stored and undoes its decrement. -/
theorem callThenRetResumesAfterTheCall : Obligations.CallThenRetResumesAfterTheCall := by
  intro s t u a ha h7 hcall husp huread
  obtain ⟨t', ht', hsp, hreturn, -⟩ := callResult s a ha h7
  cases ht'.symm.trans hcall
  obtain ⟨v, hv, hpc, hinc, -⟩ := retResult.2 u
  refine ⟨v, hv, ?pc, State.sp_restored (husp.trans hsp) hinc⟩
  case pc =>
    rw [hpc, huread, hsp]
    exact BitVec.eq_of_toNat_eq (hreturn.trans (BitVec.toNat_add s.pc 2#8).symm)

end Machine

end Sys2Proof
